-- ==== Sys2Proof/Word.lean ====
section
/-! DEFINITION. The bit-vector types the spec's records and registers are made of (00_scope.md R6, 30_encoding.md R50, R54, R62). -/

namespace Sys2Proof

/-- The unit of both byte streams (20_memory.md R31). -/
abbrev Byte := BitVec 8

/-- The payload of one encoded byte, bits 6 to 0 (30_encoding.md R50). -/
abbrev Group := BitVec 7

/-- The operand of a command record, `VBUS` = 64 bits (30_encoding.md R54, 00_scope.md R4). -/
abbrev Operand := BitVec 64

/-- A whole command record, `CMD` in bits 67:64 and `OPERAND` in bits 63:0 (30_encoding.md R54). -/
abbrev Record := BitVec 68

/-- A symbol as the source port carries it, `END` in bit 8 and `BYTE` in bits 7:0 (30_encoding.md R62). -/
abbrev SymbolBits := BitVec 9

end Sys2Proof
end

