-- ==== Sys2Proof/Config.lean ====
section
/-! DEFINITION. What the spec leaves to an implementation or to the host, and the free values. Every constant here is opaque:
a statement about it holds whatever it is. -/

namespace Sys2Proof

/-- `PTR_W`, the width the host means by pointer-width, as a width select; the block never sees it
(00_scope.md R4, 92_eei_decisions.md D3: open, one of the four widths). Log 13. -/
opaque Config.ptrWsel : BitVec 2

/-- Free value: what `DEC.RESULT` holds after the n-th decoder response
(41_decoder.md R91, 93_implementation_defined.md U14: any value). Log 5. -/
opaque Config.leftoverResult : Nat → BitVec 64

/-- Free value: what `DEC.SHIFT` holds after the n-th decoder response (R91, U14). Log 5. -/
opaque Config.leftoverShift : Nat → BitVec 7

/-- Free value: what `DEC.CNT` holds after the n-th decoder response (R91, U14). Log 5. -/
opaque Config.leftoverCnt : Nat → BitVec 4

end Sys2Proof
end

