-- ==== Sys2Proof/Syntax.lean ====
section
/-! DEFINITION. The instructions: the twelve commands of 30_encoding.md R56 and the two byte classes of R51, one constructor
per row of opcode_table.json; the forms their words take; the source symbols; the pseudo-commands. -/

namespace Sys2Proof

/-- One constructor per row of opcode_table.json. A decode command has no operand of its own: `OPERAND` is ignored
(30_encoding.md R58) and its data come from the source. -/
inductive Instr where
  /-- `ENC.8`, `CMD` = 0x0 (40_encoder.md R72). -/
  | enc8 (operand : Operand)
  /-- `ENC.16`, `CMD` = 0x1 (R73). -/
  | enc16 (operand : Operand)
  /-- `ENC.32`, `CMD` = 0x2 (R74). -/
  | enc32 (operand : Operand)
  /-- `ENC.64`, `CMD` = 0x3 (R75). -/
  | enc64 (operand : Operand)
  /-- `DEC.8`, `CMD` = 0x4 (41_decoder.md R95). -/
  | dec8
  /-- `DEC.16`, `CMD` = 0x5 (R96). -/
  | dec16
  /-- `DEC.32`, `CMD` = 0x6 (R97). -/
  | dec32
  /-- `DEC.64`, `CMD` = 0x7 (R98). -/
  | dec64
  /-- `DECS.8`, `CMD` = 0xC (R99). -/
  | decs8
  /-- `DECS.16`, `CMD` = 0xD (R100). -/
  | decs16
  /-- `DECS.32`, `CMD` = 0xE (R101). -/
  | decs32
  /-- `DECS.64`, `CMD` = 0xF (R102). -/
  | decs64
  /-- `CONTB`: a byte of an encoding with the continuation flag set (30_encoding.md R51). -/
  | contb (group : Group)
  /-- `LASTB`: the last byte of an encoding (R51). -/
  | lastb (group : Group)
  deriving DecidableEq, Repr

/-- What the block reads an instruction from: a record on the command port (R54) or a byte of the wire format (R50). -/
inductive Code where
  | record (bits : Record)
  | byte (bits : Byte)
  deriving DecidableEq, Repr

/-- Why a code is no instruction. -/
inductive DecodeError where
  /-- `CMD` = 0x8 to 0xB, `OP` = 0 with `STRICT` = 1 (30_encoding.md R57). -/
  | reservedCommand (code : BitVec 4)
  deriving DecidableEq, Repr

/-- What the source hands over (20_memory.md R35): a byte, or `End`. -/
inductive Symbol where
  | byte (b : Byte)
  | eoi
  deriving DecidableEq, Repr

/-- The pointer-width pseudo-commands `ENC.P v`, `DEC.P`, `DECS.P` (30_encoding.md R64). -/
inductive Pseudo where
  | encP (operand : Operand)
  | decP
  | decsP
  deriving DecidableEq, Repr

end Sys2Proof
end

