-- ==== Sys2Proof/WellFormed.lean ====
section
/-! DEFINITION. Well-formed instructions: those a host that keeps D00's operand invariant offers. -/

namespace Sys2Proof

/-- D00's invariant on an integer value, value ≤ 2^W − 1 (70_reset_and_hazards.md R175). The block does not check it: an
instruction that is not well formed runs too, on its low W bits (30_encoding.md R58). Log 14. -/
def Instr.wellFormed : Instr → Bool
  | .enc8 v => decide (v.toNat < 2 ^ 8)
  | .enc16 v => decide (v.toNat < 2 ^ 16)
  | .enc32 v => decide (v.toNat < 2 ^ 32)
  | .enc64 v => decide (v.toNat < 2 ^ 64)
  | .dec8 | .dec16 | .dec32 | .dec64 => true
  | .decs8 | .decs16 | .decs32 | .decs64 => true
  | .contb _ | .lastb _ => true

end Sys2Proof
end

