-- ==== Sys2Proof/Decode.lean ====
section
/-! DEFINITION. The decoder of command records, wire bytes and source symbols, the encoder beside it, the mnemonics and the
pseudo-commands (30_encoding.md R50 to R64). -/

namespace Sys2Proof

/-! ## The wire byte (R50) -/

/-- `CONT`, bit 7 of a byte (R50). -/
def contOf (b : Byte) : Bool := b.getLsbD 7

/-- `GROUP`, bits 6 to 0 of a byte (R50). -/
def groupOf (b : Byte) : Group := b.extractLsb' 0 7

/-- The byte `(CONT << 7) | GROUP` (R50). -/
def wireByte (cont : Bool) (group : Group) : Byte := BitVec.ofBool cont ++ group

/-- Every byte value is of exactly one class (R51). -/
def decodeByte (b : Byte) : Instr :=
  if contOf b then .contb (groupOf b) else .lastb (groupOf b)

/-! ## The command record (R54, R55, R56) -/

/-- `CMD`, bits 67:64 of a record (R54). -/
def cmdOf (r : Record) : BitVec 4 := r.extractLsb' 64 4

/-- `OPERAND`, bits 63:0 of a record (R54). -/
def operandOf (r : Record) : Operand := r.extractLsb' 0 64

/-- The record with the given `CMD` and `OPERAND` (R54). -/
def recordOf (cmd : BitVec 4) (operand : Operand) : Record := cmd ++ operand

/-- `STRICT`, bit 3 of `CMD` (R55). -/
def strictOf (cmd : BitVec 4) : Bool := cmd.getLsbD 3

/-- `OP`, bit 2 of `CMD`: set for a decode (R55). -/
def opOf (cmd : BitVec 4) : Bool := cmd.getLsbD 2

/-- `WSEL`, bits 1:0 of `CMD` (R55). -/
def wselOf (cmd : BitVec 4) : BitVec 2 := cmd.extractLsb' 0 2

/-- The encode command of a width select (R56). -/
def encInstr (wsel : BitVec 2) (operand : Operand) : Instr :=
  match wsel.toNat with
  | 0 => .enc8 operand
  | 1 => .enc16 operand
  | 2 => .enc32 operand
  | _ => .enc64 operand

/-- The lenient decode command of a width select (R56). -/
def decInstr (wsel : BitVec 2) : Instr :=
  match wsel.toNat with
  | 0 => .dec8
  | 1 => .dec16
  | 2 => .dec32
  | _ => .dec64

/-- The strict decode command of a width select (R56). -/
def decsInstr (wsel : BitVec 2) : Instr :=
  match wsel.toNat with
  | 0 => .decs8
  | 1 => .decs16
  | 2 => .decs32
  | _ => .decs64

/-- The command a record asks for; the four codes with `OP` = 0 and `STRICT` = 1 are reserved (R56, R57). -/
def decodeRecord (r : Record) : Except DecodeError Instr :=
  match opOf (cmdOf r), strictOf (cmdOf r) with
  | false, false => .ok (encInstr (wselOf (cmdOf r)) (operandOf r))
  | false, true => .error (.reservedCommand (cmdOf r))
  | true, false => .ok (decInstr (wselOf (cmdOf r)))
  | true, true => .ok (decsInstr (wselOf (cmdOf r)))

/-- The instruction a code stands for. -/
def decode : Code → Except DecodeError Instr
  | .record r => decodeRecord r
  | .byte b => .ok (decodeByte b)

/-- The code of an instruction, from R56's map and R51's classes. A decode command's `OPERAND`, which the block ignores
(R58), is written 0. -/
def encode : Instr → Code
  | .enc8 v => .record (recordOf 0x0 v)
  | .enc16 v => .record (recordOf 0x1 v)
  | .enc32 v => .record (recordOf 0x2 v)
  | .enc64 v => .record (recordOf 0x3 v)
  | .dec8 => .record (recordOf 0x4 0)
  | .dec16 => .record (recordOf 0x5 0)
  | .dec32 => .record (recordOf 0x6 0)
  | .dec64 => .record (recordOf 0x7 0)
  | .decs8 => .record (recordOf 0xC 0)
  | .decs16 => .record (recordOf 0xD 0)
  | .decs32 => .record (recordOf 0xE 0)
  | .decs64 => .record (recordOf 0xF 0)
  | .contb g => .byte (wireByte true g)
  | .lastb g => .byte (wireByte false g)

/-! ## The source symbol (R62) -/

/-- The symbol on the source port; `BYTE` is ignored when `END` is set (R62). -/
def decodeSymbol (w : SymbolBits) : Symbol :=
  if w.getLsbD 8 then .eoi else .byte (w.extractLsb' 0 8)

/-- A symbol as the port carries it; `BYTE` of an `End`, which is ignored, is written 0 (R62). -/
def encodeSymbol : Symbol → SymbolBits
  | .byte b => b.setWidth 9
  | .eoi => 0x100#9

/-! ## Names and pseudo-commands (R63, R64) -/

/-- The mnemonic of 30_encoding.md R56 and R51. -/
def Instr.mnemonic : Instr → String
  | .enc8 _ => "ENC.8"
  | .enc16 _ => "ENC.16"
  | .enc32 _ => "ENC.32"
  | .enc64 _ => "ENC.64"
  | .dec8 => "DEC.8"
  | .dec16 => "DEC.16"
  | .dec32 => "DEC.32"
  | .dec64 => "DEC.64"
  | .decs8 => "DECS.8"
  | .decs16 => "DECS.16"
  | .decs32 => "DECS.32"
  | .decs64 => "DECS.64"
  | .contb _ => "CONTB"
  | .lastb _ => "LASTB"

/-- A pseudo-command's expansion at a pointer-width select (R64): the model's is `Config.ptrWsel`. -/
def Pseudo.expandAt (wsel : BitVec 2) : Pseudo → Instr
  | .encP v => encInstr wsel v
  | .decP => decInstr wsel
  | .decsP => decsInstr wsel

/-- A pseudo-command's expansion with the host's `PTR_W` (R64). -/
def Pseudo.expand : Pseudo → Instr := Pseudo.expandAt Config.ptrWsel

/-! ## A word as opcode_table.json numbers its bits -/

/-- The code that `nbits` bits `w` of the opcode table stand for. The table's command rows give the four bits of `CMD` (whose
`OPERAND` is then 0), its wire rows the eight bits of a byte. A value below 16 is read as a `CMD`, in four bits or in a whole
byte; a whole byte of 16 or more is a wire byte. Log 7. -/
def tableCode (nbits w : Nat) : Option Code :=
  if nbits ≤ 8 ∧ w < 16 then some (.record (recordOf (BitVec.ofNat 4 w) 0))
  else if nbits = 8 ∧ w < 256 then some (.byte (BitVec.ofNat 8 w))
  else none

/-- The instruction the decoder reads from the table's word. -/
def decodeTableWord (nbits w : Nat) : Option Instr :=
  match tableCode nbits w with
  | some c =>
    match decode c with
    | .ok i => some i
    | .error _ => none
  | none => none

end Sys2Proof
end

