-- ==== Sys2Proof/Machine/State.lean ====
section
/-! DEFINITION. The state: the ten registers of 10_state.md R10, what stands on the block's ports (R24, the host's side), and
the schedule. -/

namespace Sys2Proof.Machine

/-- `PHASE` of a unit: IDLE = 0, BUSY = 1 (R11, R15). -/
inductive Phase where
  | idle
  | busy
  deriving DecidableEq, Repr

/-- The registers of the encoder unit (R11 to R14). -/
structure EncRegs where
  phase : Phase
  wsel : BitVec 2
  x : BitVec 64
  cnt : BitVec 4
  deriving DecidableEq, Repr

/-- The registers of the decoder unit (R15 to R20). -/
structure DecRegs where
  phase : Phase
  wsel : BitVec 2
  strict : Bool
  result : BitVec 64
  shift : BitVec 7
  cnt : BitVec 4
  deriving DecidableEq, Repr

/-- The encoder's registers after reset (R27). -/
def EncRegs.reset : EncRegs := { phase := .idle, wsel := 0, x := 0, cnt := 0 }

/-- The decoder's registers after reset (R27). -/
def DecRegs.reset : DecRegs :=
  { phase := .idle, wsel := 0, strict := false, result := 0, shift := 0, cnt := 0 }

/-- The failures of a decode (60_exceptions.md R141). -/
inductive Failure where
  | unexpectedEndOfInput
  | overflow
  | nonCanonical
  deriving DecidableEq, Repr

/-- The encoder's response record (30_encoding.md R59). -/
structure EncResponse where
  count : BitVec 4
  deriving DecidableEq, Repr

/-- The decoder's response as the sum type R60 asks for; an error carries no value. -/
inductive DecResponse where
  | ok (value : BitVec 64) (count : BitVec 4)
  | error (tag : Failure) (count : BitVec 4)
  deriving DecidableEq, Repr

/-- What the host can do (70_reset_and_hazards.md R180). -/
inductive HostAct where
  /-- Offer a command record (R54, R170). -/
  | offer (r : Record)
  /-- Withdraw a record that is never accepted (R57). -/
  | withdraw
  /-- Hand one symbol over at the source port (R35, R62). -/
  | offerSymbol (w : SymbolBits)
  /-- Put another source in place (R37, R168): the symbols on offer and whether End follows them for ever. -/
  | replaceSource (symbols : List Symbol) (ended : Bool)
  /-- Present the sink's bytes from an offset as the source, followed by End (R37). -/
  | presentSink (offset : Nat)
  /-- The host's own change of its sink (R33, R168). -/
  | replaceSink (bytes : List Byte)
  /-- Whether the sink can take a byte from now on (R34, R172). -/
  | setSinkReady (ready : Bool)
  /-- Reset (R165 to R167). -/
  | reset
  deriving DecidableEq, Repr

/-- Whose move a step is: the command port's, a unit's, or the host's (00_scope.md R5, R178). Log 1. -/
inductive Turn where
  | accept
  | enc
  | dec
  | host (act : HostAct)
  deriving DecidableEq, Repr

/-- The state. `enc` and `dec` are the block's ten registers (R10); `port` to `decOut` are the host's side of the ports (R24);
`turns` is the schedule, which R178 leaves open; `draws` counts the free values used (log 5). -/
structure State where
  /-- ENC's registers. -/
  enc : EncRegs
  /-- DEC's registers. -/
  dec : DecRegs
  /-- The record on the command port. -/
  port : Option Record
  /-- What the sink holds, oldest byte first (R33). -/
  sink : List Byte
  /-- Whether the sink can take a byte now (R34). -/
  sinkReady : Bool
  /-- The symbols on offer, next first (R35). -/
  source : List Symbol
  /-- Whether the source yields End at every request once `source` is empty (R35). -/
  sourceEnded : Bool
  /-- ENC's responses, oldest first. -/
  encOut : List EncResponse
  /-- DEC's responses, oldest first. -/
  decOut : List DecResponse
  /-- The schedule, next turn first. -/
  turns : List Turn
  /-- How many free values of `Config` have been used. -/
  draws : Nat
  deriving DecidableEq, Repr

/-- The state right after reset: the ten registers as R27's table gives them; nothing on the ports and no turn taken yet
(DESIGN CHOICE, log 4). -/
def State.reset : State :=
  { enc := EncRegs.reset, dec := DecRegs.reset, port := none, sink := [], sinkReady := true, source := [],
    sourceEnded := false, encOut := [], decOut := [], turns := [], draws := 0 }

/-- The block never traps (60_exceptions.md R155: "Fault: none"), so there is no reason to fault: no constructor. -/
inductive Fault where
  deriving DecidableEq, Repr

/-- Why the model gives a step no transition. -/
inductive Refusal where
  /-- An instruction that has no meaning yet; no arm of exec raises it. Safe. -/
  | notModelled (mnemonic : String)
  /-- Raised by the command port's turn on a reserved code (30_encoding.md R57). Safe: the hardware leaves the record waiting. -/
  | reservedCommand (code : BitVec 4)
  /-- Raised by a host turn that offers a record while another waits (70_reset_and_hazards.md R170). Safe. -/
  | portOccupied
  /-- Raised by a host turn that withdraws a record it must hold until accepted (R170, R180). Safe. -/
  | recordNotHeld
  /-- Raised by a host turn that changes or reads out the sink of a running encode (20_memory.md R44, R171). Safe. -/
  | sharedSink
  /-- Raised by a host turn that takes the source of a running decode away (R44, R171). Safe. -/
  | sharedSource
  deriving DecidableEq, Repr

end Sys2Proof.Machine
end

