-- ==== Sys2Proof/Machine/Operands.lean ====
section
/-! DEFINITION. The operand forms: the width of a command, the truncated operand of an encode, the group and rest of the value
being encoded, the accumulator of a decode; and the response records' bits. -/

namespace Sys2Proof.Machine

/-- W = 8 << WSEL (30_encoding.md R55). -/
def width (wsel : BitVec 2) : Nat := 8 <<< wsel.toNat

/-- `MAXLEN(W)` = ceil(W/7) (00_scope.md R4, 42_laws.md R127). -/
def maxLen (w : Nat) : Nat := (w + 6) / 7

/-- `MAXREAD(W)` = ceil(W/7) + 1 (R4, R128). -/
def maxRead (w : Nat) : Nat := maxLen w + 1

/-- `zext_64(OPERAND[W-1:0])` (40_encoder.md R70, 30_encoding.md R58). -/
def encOperand (wsel : BitVec 2) (operand : Operand) : BitVec 64 :=
  (operand.setWidth (width wsel)).setWidth 64

/-- `ENC.X[6:0]`, the group of the next byte (R71). -/
def encGroup (x : BitVec 64) : Group := x.extractLsb' 0 7

/-- `ENC.X >> 7`, a logical shift (R71, R122). -/
def encRest (x : BitVec 64) : BitVec 64 := x >>> 7

/-- `DEC.RESULT | (group << DEC.SHIFT)` (41_decoder.md R91). -/
def accumulate (result : BitVec 64) (shift : BitVec 7) (group : Group) : BitVec 64 :=
  result ||| (group.setWidth 64 <<< shift.toNat)

/-- The bit of a phase (10_state.md R10). -/
def Phase.bit : Phase → BitVec 1
  | .idle => 0
  | .busy => 1

/-- The encoder's response record (30_encoding.md R59). -/
def EncResponse.bits (r : EncResponse) : BitVec 4 := r.count

/-- `STATUS` of a failure (60_exceptions.md R141). -/
def Failure.status : Failure → BitVec 2
  | .unexpectedEndOfInput => 1
  | .overflow => 2
  | .nonCanonical => 3

/-- The decoder's response record: `STATUS`, `COUNT`, `VALUE`, with `VALUE` = 0 on failure (30_encoding.md R60). Log 16. -/
def DecResponse.bits : DecResponse → BitVec 70
  | .ok value count => (0#2 ++ count ++ value : BitVec 70)
  | .error tag count => (tag.status ++ count ++ 0#64 : BitVec 70)

/-- A response as R63 writes it. -/
def EncResponse.text (r : EncResponse) : String := "-> COUNT=" ++ toString r.count.toNat

/-- A response as R63 writes it. -/
def DecResponse.text : DecResponse → String
  | .ok value count => "-> OK " ++ toString value.toNat ++ ", COUNT=" ++ toString count.toNat
  | .error .unexpectedEndOfInput count => "-> EOI, COUNT=" ++ toString count.toNat
  | .error .overflow count => "-> OVF, COUNT=" ++ toString count.toNat
  | .error .nonCanonical count => "-> NONCANON, COUNT=" ++ toString count.toNat

end Sys2Proof.Machine
end

