-- ==== Sys2Proof/Machine/Flags.lean ====
section
/-! DEFINITION. The block keeps no flag (10_state.md R22); what decides a decoder step are the two tests of 41_decoder.md R93 and
R94, and what decides an encoder step is the test of 40_encoder.md R71. -/

namespace Sys2Proof.Machine

/-- The overflow test: the group lies wholly outside the W-bit result, or partly, with a 1 among its outer bits
(41_decoder.md R91, R93). -/
def offending (w shift : Nat) (group : Group) : Bool :=
  decide (w ≤ shift) || (decide (w < shift + 7) && decide (group.toNat >>> (w - shift) ≠ 0))

/-- The strict test on a terminating byte that is not offending: a zero group that is not the first byte's
(41_decoder.md R91, R94). -/
def padded (strict : Bool) (group : Group) (count : BitVec 4) : Bool :=
  strict && decide (group = 0) && decide (1 < count.toNat)

/-- The encoder's loop test: another byte follows when the value left after the shift is not zero (40_encoder.md R71). -/
def moreFollows (x : BitVec 64) : Bool := decide (encRest x ≠ 0)

end Sys2Proof.Machine
end

