-- ==== Sys2Proof/Machine/Ops.lean ====
section
/-! DEFINITION. The named operations over the state: the ports, command accept, the responses (a failure's among them), the steps
of the two units, reset, and the host's acts. -/

namespace Sys2Proof.Machine

/-! ## The ports -/

/-- `SinkAppend(b)` (20_memory.md R34). -/
def sinkAppend (b : Byte) (s : State) : State := { s with sink := s.sink ++ [b] }

/-- The symbol the source offers now, if any (20_memory.md R35, R36). -/
def srcPeek (s : State) : Option Symbol :=
  match s.source with
  | sym :: _ => some sym
  | [] => if s.sourceEnded then some .eoi else none

/-- What `SrcNext()` takes away: the symbol at the front (20_memory.md R36). -/
def srcDrop (s : State) : State := { s with source := s.source.tail }

/-! ## Command accept -/

/-- Encoder accept (40_encoder.md R70). A record for a BUSY encoder waits at the port. -/
def acceptEnc (wsel : BitVec 2) (operand : Operand) (s : State) : State :=
  match s.enc.phase with
  | .idle => { s with enc := { phase := .busy, wsel := wsel, x := encOperand wsel operand, cnt := 0 }, port := none }
  | .busy => s

/-- The decoder's registers right after accept (41_decoder.md R90). -/
def decStart (wsel : BitVec 2) (strict : Bool) : DecRegs :=
  { phase := .busy, wsel := wsel, strict := strict, result := 0, shift := 0, cnt := 0 }

/-- Decoder accept (41_decoder.md R90). A record for a BUSY decoder waits at the port. -/
def acceptDec (wsel : BitVec 2) (strict : Bool) (s : State) : State :=
  match s.dec.phase with
  | .idle => { s with dec := decStart wsel strict, port := none }
  | .busy => s

/-! ## Responses -/

/-- `respond ENC(count)` (00_scope.md R7, 30_encoding.md R59). -/
def respondEnc (count : BitVec 4) (s : State) : State :=
  { s with enc := { s.enc with phase := .idle }, encOut := s.encOut ++ [⟨count⟩] }

/-- `respond DEC(…)` (00_scope.md R7, 30_encoding.md R60). The working registers it leaves behind are free values
(41_decoder.md R91, 93_implementation_defined.md U14). Log 5. -/
def respondDec (r : DecResponse) (s : State) : State :=
  { s with
    dec := { s.dec with phase := .idle, result := Config.leftoverResult s.draws,
                        shift := Config.leftoverShift s.draws, cnt := Config.leftoverCnt s.draws }
    decOut := s.decOut ++ [r]
    draws := s.draws + 1 }

/-- `raise`: reporting a failure is the whole of trap entry (60_exceptions.md R147). Nothing is saved and control goes nowhere, so
there is nothing to return from: the next accept starts afresh (R149). -/
def raiseFailure (tag : Failure) (count : BitVec 4) (s : State) : State := respondDec (.error tag count) s

/-! ## The encoder step -/

/-- A pass of the loop that goes on (40_encoder.md R71). -/
def emitMore (s : State) : State :=
  let t := sinkAppend (wireByte true (encGroup s.enc.x)) s
  { t with enc := { s.enc with x := encRest s.enc.x, cnt := s.enc.cnt + 1 } }

/-- The pass of the loop that stops and responds (40_encoder.md R71). Log 6. -/
def emitLast (s : State) : State :=
  let t := sinkAppend (wireByte false (encGroup s.enc.x)) s
  respondEnc (s.enc.cnt + 1) { t with enc := { s.enc with x := 0 } }

/-- The encoder's turn: its step if it is BUSY and the sink can take a byte (40_encoder.md R71, 20_memory.md R34), else a
wait. -/
def encStep (s : State) : State :=
  match s.enc.phase with
  | .idle => s
  | .busy =>
    if s.sinkReady then
      if moreFollows s.enc.x then emitMore s else emitLast s
    else s

/-! ## The decoder step (41_decoder.md R91) -/

/-- The step that takes `End` (41_decoder.md R91, 60_exceptions.md R142). -/
def takeEnd (s : State) : State := raiseFailure .unexpectedEndOfInput s.dec.cnt (srcDrop s)

/-- Whether the group just read is offending for the command in progress (R93). -/
def groupOffends (group : Group) (s : State) : Bool := offending (width s.dec.wsel) s.dec.shift.toNat group

/-- The step that takes an offending byte, whatever its continuation bit (R91, 60_exceptions.md R143). -/
def takeOffending (s : State) : State := raiseFailure .overflow (s.dec.cnt + 1) (srcDrop s)

/-- The step that takes a continuation byte that is not offending (R91). -/
def takeMore (group : Group) (s : State) : State :=
  let t := srcDrop s
  { t with dec := { s.dec with result := accumulate s.dec.result s.dec.shift group,
                               shift := s.dec.shift + 7, cnt := s.dec.cnt + 1 } }

/-- The step that takes a terminating byte that is not offending: NonCanonical or OK (R91, R94). -/
def takeLast (group : Group) (s : State) : State :=
  if padded s.dec.strict group (s.dec.cnt + 1) then
    raiseFailure .nonCanonical (s.dec.cnt + 1) (srcDrop s)
  else
    respondDec (.ok (accumulate s.dec.result s.dec.shift group) (s.dec.cnt + 1)) (srcDrop s)

/-! ## Reset and the host -/

/-- Reset of the block: both units IDLE, every other register 0, nothing outside the block touched
(70_reset_and_hazards.md R165, R166, R167). Log 19. -/
def resetBlock (s : State) : State := { s with enc := EncRegs.reset, dec := DecRegs.reset }

/-- Whether a record is a reserved code (30_encoding.md R57). -/
def isReserved (r : Record) : Bool := strictOf (cmdOf r) && !opOf (cmdOf r)

/-- One act of the host (70_reset_and_hazards.md R180). What the spec gives no meaning is refused (20_memory.md R44,
70_reset_and_hazards.md R170, R171). Log 10. -/
def hostAct (act : HostAct) (s : State) : Host.Outcome State Fault Refusal :=
  match act with
  | .offer r =>
    match s.port with
    | none => .next { s with port := some r }
    | some _ => .refused .portOccupied
  | .withdraw =>
    match s.port with
    | none => .next s
    | some r => if isReserved r then .next { s with port := none } else .refused .recordNotHeld
  | .offerSymbol w => .next { s with source := s.source ++ [decodeSymbol w] }
  | .replaceSource symbols ended =>
    match s.dec.phase with
    | .idle => .next { s with source := symbols, sourceEnded := ended }
    | .busy => .refused .sharedSource
  | .presentSink offset =>
    match s.enc.phase, s.dec.phase with
    | .busy, _ => .refused .sharedSink
    | .idle, .busy => .refused .sharedSource
    | .idle, .idle => .next { s with source := (s.sink.drop offset).map Symbol.byte, sourceEnded := true }
  | .replaceSink bytes =>
    match s.enc.phase with
    | .idle => .next { s with sink := bytes }
    | .busy => .refused .sharedSink
  | .setSinkReady ready => .next { s with sinkReady := ready }
  | .reset => .next (resetBlock s)

end Sys2Proof.Machine
end

