-- ==== Sys2Proof/Machine/Decoder.lean ====
section
/-! DEFINITION. The meanings of the decode commands: decoder accept at their width and policy (41_decoder.md R90, R95 to R102). The symbols
are taken afterwards, one a decoder turn (R91). -/

namespace Sys2Proof.Machine

/-- `DEC.8` (41_decoder.md R95). -/
def execDec8 (s : State) : Host.Outcome State Fault Refusal := .next (acceptDec 0 false s)

/-- `DEC.16` (41_decoder.md R96). -/
def execDec16 (s : State) : Host.Outcome State Fault Refusal := .next (acceptDec 1 false s)

/-- `DEC.32` (41_decoder.md R97). -/
def execDec32 (s : State) : Host.Outcome State Fault Refusal := .next (acceptDec 2 false s)

/-- `DEC.64` (41_decoder.md R98). -/
def execDec64 (s : State) : Host.Outcome State Fault Refusal := .next (acceptDec 3 false s)

/-- `DECS.8` (41_decoder.md R99). -/
def execDecs8 (s : State) : Host.Outcome State Fault Refusal := .next (acceptDec 0 true s)

/-- `DECS.16` (41_decoder.md R100). -/
def execDecs16 (s : State) : Host.Outcome State Fault Refusal := .next (acceptDec 1 true s)

/-- `DECS.32` (41_decoder.md R101). -/
def execDecs32 (s : State) : Host.Outcome State Fault Refusal := .next (acceptDec 2 true s)

/-- `DECS.64` (41_decoder.md R102). -/
def execDecs64 (s : State) : Host.Outcome State Fault Refusal := .next (acceptDec 3 true s)

end Sys2Proof.Machine
end

