-- ==== Sys2Proof/Machine/Encoder.lean ====
section
/-! DEFINITION. The meanings of the encode commands: encoder accept at their width (40_encoder.md R70, R72 to R75). The bytes follow, one
an encoder turn (R71, `encStep`). -/

namespace Sys2Proof.Machine

/-- `ENC.8` (40_encoder.md R72). -/
def execEnc8 (operand : Operand) (s : State) : Host.Outcome State Fault Refusal := .next (acceptEnc 0 operand s)

/-- `ENC.16` (40_encoder.md R73). -/
def execEnc16 (operand : Operand) (s : State) : Host.Outcome State Fault Refusal := .next (acceptEnc 1 operand s)

/-- `ENC.32` (40_encoder.md R74). -/
def execEnc32 (operand : Operand) (s : State) : Host.Outcome State Fault Refusal := .next (acceptEnc 2 operand s)

/-- `ENC.64` (40_encoder.md R75). -/
def execEnc64 (operand : Operand) (s : State) : Host.Outcome State Fault Refusal := .next (acceptEnc 3 operand s)

end Sys2Proof.Machine
end

