-- ==== Sys2Proof/Machine/Wire.lean ====
section
/-! DEFINITION. The meanings of the two byte classes: the decoder step on a byte of each (30_encoding.md R51, 41_decoder.md R91). A byte
offered to an IDLE decoder is not taken (20_memory.md R36). -/

namespace Sys2Proof.Machine

/-- `CONTB`: the decoder step on a byte with bit 7 set (41_decoder.md R91). -/
def execContb (group : Group) (s : State) : Host.Outcome State Fault Refusal :=
  match s.dec.phase with
  | .idle => .next s
  | .busy => if groupOffends group s then .next (takeOffending s) else .next (takeMore group s)

/-- `LASTB`: the decoder step on a byte with bit 7 clear (41_decoder.md R91). -/
def execLastb (group : Group) (s : State) : Host.Outcome State Fault Refusal :=
  match s.dec.phase with
  | .idle => .next s
  | .busy => if groupOffends group s then .next (takeOffending s) else .next (takeLast group s)

end Sys2Proof.Machine
end

