-- ==== Sys2Proof/Machine/Dispatch.lean ====
section
/-! DEFINITION. One arm per instruction. -/

namespace Sys2Proof.Machine

def exec (i : Instr) (s : State) : Host.Outcome State Fault Refusal :=
  match i with
  | .enc8 v => Sys2Proof.Machine.execEnc8 v s
  | .enc16 v => Sys2Proof.Machine.execEnc16 v s
  | .enc32 v => Sys2Proof.Machine.execEnc32 v s
  | .enc64 v => Sys2Proof.Machine.execEnc64 v s
  | .dec8 => Sys2Proof.Machine.execDec8 s
  | .dec16 => Sys2Proof.Machine.execDec16 s
  | .dec32 => Sys2Proof.Machine.execDec32 s
  | .dec64 => Sys2Proof.Machine.execDec64 s
  | .decs8 => Sys2Proof.Machine.execDecs8 s
  | .decs16 => Sys2Proof.Machine.execDecs16 s
  | .decs32 => Sys2Proof.Machine.execDecs32 s
  | .decs64 => Sys2Proof.Machine.execDecs64 s
  | .contb g => Sys2Proof.Machine.execContb g s
  | .lastb g => Sys2Proof.Machine.execLastb g s

end Sys2Proof.Machine
end

