-- ==== Sys2Proof/Machine/Turn.lean ====
section
/-! DEFINITION. What each agent does with its turn, and placing one instruction where the next step takes it. -/

namespace Sys2Proof.Machine

/-- The command port's turn: the offered record's instruction runs (40_encoder.md R70, 41_decoder.md R90); a reserved code is
refused (30_encoding.md R57); with no record on offer nothing happens. -/
def portTurn (s : State) : Host.Outcome State Fault Refusal :=
  match s.port with
  | none => .next s
  | some r =>
    match decodeRecord r with
    | .ok i => exec i s
    | .error (.reservedCommand code) => .refused (.reservedCommand code)

/-- The decoder's turn: a BUSY decoder takes the symbol on offer, a byte running as the instruction of its class
(41_decoder.md R91); an IDLE decoder takes none, and with no symbol on offer the decoder waits (20_memory.md R36). -/
def decTurn (s : State) : Host.Outcome State Fault Refusal :=
  match s.dec.phase with
  | .idle => .next s
  | .busy =>
    match srcPeek s with
    | none => .next s
    | some .eoi => .next (takeEnd s)
    | some (.byte b) => exec (decodeByte b) s

/-- One turn. -/
def takeTurn (t : Turn) (s : State) : Host.Outcome State Fault Refusal :=
  match t with
  | .accept => portTurn s
  | .enc => .next (encStep s)
  | .dec => decTurn s
  | .host act => hostAct act s

/-- The state with a turn taken off the schedule. -/
def dropTurn (s : State) : State := { s with turns := s.turns.tail }

/-- `s` with a code placed so that the very next step runs it. A record is put on the command port and the port's turn comes
next. A byte is put at the front of the source and the decoder's turn comes next; an IDLE decoder, which takes no byte, is
first put where accepting `DEC.64` puts it (41_decoder.md R90). Log 8. -/
def placeCode (c : Code) (s : State) : State :=
  match c with
  | .record r => { s with port := some r, turns := .accept :: s.turns }
  | .byte b =>
    { s with
      dec := match s.dec.phase with
        | .idle => decStart 3 false
        | .busy => s.dec
      source := .byte b :: s.source
      turns := .dec :: s.turns }

/-- `s` with the opcode table's word placed so that the very next step runs it; a word the table does not have changes
nothing. -/
def placeTableWord (s : State) (nbits w : Nat) : State :=
  match tableCode nbits w with
  | some c => placeCode c s
  | none => s

end Sys2Proof.Machine
end

