-- ==== Sys2Proof/Machine/Step.lean ====
section
/-! DEFINITION. One step: the agent whose turn is next moves (70_reset_and_hazards.md R178). -/

namespace Sys2Proof.Machine

/-- The next turn of the schedule is taken. With no turn left no agent moves. Log 1, log 3. -/
def step (s : State) : Host.Outcome State Fault Refusal :=
  match s.turns with
  | [] => .next s
  | t :: _ => takeTurn t (dropTurn s)

/-- See `placeTableWord`. -/
def State.withFetchWord (s : State) (nbits w : Nat) : State := placeTableWord s nbits w

end Sys2Proof.Machine
end

