-- ==== Sys2Proof/Machine/Functions.lean ====
section
/-! DEFINITION. The block's behaviour as the two pure functions of 42_laws.md R120 and R121, for any width W ≥ 1, and the notions
the laws speak of: well-formed encodings (30_encoding.md R52), their value (R53), bit length (00_scope.md R6), padding. -/

namespace Sys2Proof.Machine

/-- The encoding function by recursion on a bound of the number of further bytes. -/
def encFuel : Nat → Nat → List Byte
  | 0, x => [wireByte false (BitVec.ofNat 7 x)]
  | fuel + 1, x =>
    if x >>> 7 = 0 then [wireByte false (BitVec.ofNat 7 x)]
    else wireByte true (BitVec.ofNat 7 x) :: encFuel fuel (x >>> 7)

/-- `enc(x)` (42_laws.md R120). `x` bounds the number of bytes of its own encoding. -/
def encBytes (x : Nat) : List Byte := encFuel x x

/-- `encode_W(o)` = `enc(o[W-1:0])` (R120). -/
def encodeW (w o : Nat) : List Byte := encBytes (o % 2 ^ w)

/-- The outcome of a decode: `ok(v, n)` or `error(t, n)` (R121). -/
inductive DecodeResult where
  | ok (value count : Nat)
  | error (tag : Failure) (count : Nat)
  deriving DecidableEq, Repr

/-- `go(s, i, acc)` (R121), on what is left of the source from byte `i` on. -/
def decodeGo (w : Nat) (strict : Bool) : List Byte → Nat → Nat → DecodeResult
  | [], i, _ => .error .unexpectedEndOfInput i
  | b :: rest, i, acc =>
    let g := (groupOf b).toNat
    if w ≤ 7 * i ∨ (w < 7 * i + 7 ∧ g >>> (w - 7 * i) ≠ 0) then .error .overflow (i + 1)
    else if contOf b = true then decodeGo w strict rest (i + 1) (acc ||| (g <<< (7 * i)))
    else if strict = true ∧ g = 0 ∧ 1 ≤ i then .error .nonCanonical (i + 1)
    else .ok (acc ||| (g <<< (7 * i))) (i + 1)

/-- `decode_W(s, st)` (R121). -/
def decodeW (w : Nat) (bytes : List Byte) (strict : Bool) : DecodeResult := decodeGo w strict bytes 0 0

/-- The count of an outcome. -/
def DecodeResult.count : DecodeResult → Nat
  | .ok _ n => n
  | .error _ n => n

/-- How many symbols a decode with this outcome has taken from the source: its bytes, and the End that ended it
(20_memory.md R41). -/
def DecodeResult.symbolsTaken : DecodeResult → Nat
  | .ok _ n => n
  | .error .unexpectedEndOfInput n => n + 1
  | .error .overflow n => n
  | .error .nonCanonical n => n

/-- The outcome as the response the decoder gives (R121). -/
def DecodeResult.response : DecodeResult → DecResponse
  | .ok v n => .ok (BitVec.ofNat 64 v) (BitVec.ofNat 4 n)
  | .error t n => .error t (BitVec.ofNat 4 n)

/-- A well-formed encoding: at least one byte, all but the last `CONTB`, the last `LASTB` (30_encoding.md R52). -/
def isEncoding : List Byte → Bool
  | [] => false
  | [b] => !contOf b
  | b :: rest => contOf b && isEncoding rest

/-- The sum of `b_j[6:0] << (7 * j)`, the first byte's index being `i` (30_encoding.md R53). -/
def valueFrom : Nat → List Byte → Nat
  | _, [] => 0
  | i, b :: rest => ((groupOf b).toNat <<< (7 * i)) + valueFrom (i + 1) rest

/-- The value of an encoding (30_encoding.md R53). -/
def encodingValue (bytes : List Byte) : Nat := valueFrom 0 bytes

/-- `bit_length(v)` (00_scope.md R6). -/
def bitLength (v : Nat) : Nat := if v = 0 then 0 else v.log2 + 1

/-- The length the laws give an encoding: ceil(max(1, bit_length(v)) / 7) (40_encoder.md R77, 42_laws.md R125). -/
def encLength (v : Nat) : Nat := (max 1 (bitLength v) + 6) / 7

/-- The encoding of `v` with `k` zero groups of padding (42_laws.md R131): the last byte's flag set, `k - 1` bytes `80`, then `00`. -/
def paddedEnc (v k : Nat) : List Byte :=
  match k with
  | 0 => encBytes v
  | k + 1 => (encBytes v).map (fun b => wireByte true (groupOf b)) ++ List.replicate k (0x80 : Byte) ++ [(0x00 : Byte)]

/-- What `decode` commands at the given widths answer one after another on one buffer (42_laws.md R132). -/
def decodeStream (strict : Bool) : List Nat → List Byte → List DecodeResult
  | [], _ => []
  | w :: ws, bytes =>
    let r := decodeW w bytes strict
    r :: decodeStream strict ws (bytes.drop r.count)

end Sys2Proof.Machine
end

