-- ==== Sys2Proof/Safety.lean ====
section
/-! DEFINITION. What claims are stated in: the invariants of 10_state.md R26, the observables of 00_scope.md R9, the end of a run
(70_reset_and_hazards.md R181), states that differ in an IDLE unit's registers only (R25), and classes of turns. -/

namespace Sys2Proof.Machine

/-- ENC's invariant while BUSY (10_state.md R26): the value left fits the bits left, the count is in range, and the last
`ENC.CNT` bytes of the sink are `CONTB`. -/
abbrev EncInv (s : State) : Prop :=
  s.enc.phase = .busy →
    s.enc.x.toNat < 2 ^ (width s.enc.wsel - 7 * s.enc.cnt.toNat)
    ∧ (s.enc.cnt = 0 ∨ s.enc.x ≠ 0)
    ∧ s.enc.cnt.toNat + 1 ≤ maxLen (width s.enc.wsel)
    ∧ s.enc.cnt.toNat ≤ s.sink.length
    ∧ ∀ b ∈ s.sink.drop (s.sink.length - s.enc.cnt.toNat), contOf b = true

/-- DEC's invariant while BUSY (10_state.md R26). -/
abbrev DecInv (s : State) : Prop :=
  s.dec.phase = .busy →
    s.dec.shift.toNat = 7 * s.dec.cnt.toNat
    ∧ s.dec.cnt.toNat ≤ maxLen (width s.dec.wsel)
    ∧ s.dec.result.toNat < 2 ^ (min (width s.dec.wsel) s.dec.shift.toNat)

/-- The invariants of both units. -/
abbrev State.Inv (s : State) : Prop := EncInv s ∧ DecInv s

/-! ## A run on a list of commands (70_reset_and_hazards.md R181) -/

/-- The record a turn offers, if it is the host's offer of one. -/
def Turn.offered : Turn → Option Record
  | .host (.offer r) => some r
  | .accept | .enc | .dec | .host _ => none

/-- What is left of the host's list of commands: the records it has still to offer, in order (R181). -/
def commandsLeft (ts : List Turn) : List Record := ts.filterMap Turn.offered

/-- The end of a run: every command of the list has been accepted and answered, so nothing is left of the list, no command is
waiting and both units are IDLE (R181). A BUSY unit owes a response, and gives it when it goes IDLE (R71, R91). -/
abbrev State.runOver (s : State) : Prop :=
  s.enc.phase = .idle ∧ s.dec.phase = .idle ∧ s.port = none ∧ commandsLeft s.turns = []

/-- How many responses are owed: one for each BUSY unit, one for a waiting command, and one for each command of the list the host
has still to offer. A reserved code is never accepted and is owed none (30_encoding.md R57). -/
def State.owed (s : State) : Nat :=
  s.enc.phase.bit.toNat + s.dec.phase.bit.toNat
    + (s.port.toList ++ commandsLeft s.turns).countP fun r => !isReserved r

/-- How many responses have been delivered. -/
def State.delivered (s : State) : Nat := s.encOut.length + s.decOut.length

/-- Stuck until the host acts: a unit is BUSY and its step is not enabled. This is not the end of a run (R181). -/
abbrev State.stuck (s : State) : Prop :=
  (s.enc.phase = .busy ∧ s.sinkReady = false) ∨ (s.dec.phase = .busy ∧ srcPeek s = none)

/-- What can be observed of a state (00_scope.md R9, 70_reset_and_hazards.md R181). The source's remaining symbols are `source`, and
End for ever after them if `sourceEnded`. -/
structure Observation where
  port : Option Record
  sink : List Byte
  source : List Symbol
  sourceEnded : Bool
  encOut : List EncResponse
  decOut : List DecResponse
  deriving DecidableEq, Repr

/-- The observable part of a state. -/
def State.observe (s : State) : Observation :=
  { port := s.port, sink := s.sink, source := s.source, sourceEnded := s.sourceEnded, encOut := s.encOut, decOut := s.decOut }

/-- The state with the registers of its IDLE units cleared: two states are the same up to IDLE registers when this is equal
(10_state.md R25). -/
def State.forgetIdle (s : State) : State :=
  { s with
    enc := match s.enc.phase with
      | .idle => EncRegs.reset
      | .busy => s.enc
    dec := match s.dec.phase with
      | .idle => DecRegs.reset
      | .busy => s.dec }

/-- One turn after another. -/
def andThen (o : Host.Outcome State Fault Refusal) (f : State → Host.Outcome State Fault Refusal) :
    Host.Outcome State Fault Refusal :=
  match o with
  | .next s => f s
  | .fault r => .fault r
  | .refused r => .refused r

/-- `n` steps of the machine, stopping at a refusal: the host's `Host.Core.run` at `Sys2Proof.core`
(`Sys2Proof.Machine.runSteps_eq_run`). -/
def runSteps : Nat → State → Host.Outcome State Fault Refusal
  | 0, s => .next s
  | n + 1, s => andThen (step s) (runSteps n)

/-! ## What a schedule gives a running command (42_laws.md R136) -/

/-- A turn that can stand beside a running encode and is never refused while no record is offered. -/
def Turn.besideEnc : Turn → Bool
  | .accept | .dec | .host (.offerSymbol _) | .host (.setSinkReady _) => true
  | .enc | .host _ => false

/-- A turn that can stand beside a running decode from a buffer and is never refused while no record is offered. -/
def Turn.besideDec : Turn → Bool
  | .accept | .enc | .host (.setSinkReady _) => true
  | .dec | .host _ => false

/-- Whether the sink can take a byte after a turn, if it could or could not before (20_memory.md R34). -/
def Turn.readyAfter (ready : Bool) : Turn → Bool
  | .host (.setSinkReady b) => b
  | .accept | .enc | .dec | .host _ => ready

/-- How many encoder turns of a schedule find the sink ready. -/
def readyEncTurns (ready : Bool) : List Turn → Nat
  | [] => 0
  | t :: ts => (if t = .enc ∧ ready = true then 1 else 0) + readyEncTurns (t.readyAfter ready) ts

/-- The symbol a turn hands over, if it is the host handing one over (20_memory.md R35). -/
def Turn.handed : Turn → Option Symbol
  | .host (.offerSymbol w) => some (decodeSymbol w)
  | .accept | .enc | .dec | .host _ => none

/-- The symbols that the decoder turns of a schedule find on offer, one a turn, a wait finding none (20_memory.md R35, R36). While a
decode runs no other source can be put in place (R44), so these are the symbols it takes. -/
def symbolsFound (ended : Bool) : List Symbol → List Turn → List Symbol
  | _, [] => []
  | source, t :: ts =>
    if t = .dec then
      match source with
      | sym :: rest => sym :: symbolsFound ended rest ts
      | [] => if ended = true then .eoi :: symbolsFound ended [] ts else symbolsFound ended [] ts
    else symbolsFound ended (source ++ t.handed.toList) ts

/-- The bytes before the first End. -/
def bytesBeforeEnd : List Symbol → List Byte
  | .byte b :: rest => b :: bytesBeforeEnd rest
  | .eoi :: _ => []
  | [] => []

end Sys2Proof.Machine
end

