-- ==== Sys2Proof/Certificates/Slice0/Obligations.lean ====
section
/-! DEFINITION. The statements, from the spec's numbered rules. -/

open Sys2Proof Sys2Proof.Machine

/-! ## Encodings (30_encoding.md) -/

/-- R51, R54, R56, R58: decoding an instruction's code gives it back, and encoding what a code decodes to gives that code
(a decode command's ignored `OPERAND` written 0). -/
def Obligations.DecodeAndEncodeAgree : Prop :=
  (∀ i : Instr, decode (encode i) = .ok i)
  ∧ (∀ (r : Record) (i : Instr), decode (.record r) = .ok i →
      encode i = .record (recordOf (cmdOf r) (if opOf (cmdOf r) = true then 0 else operandOf r)))
  ∧ (∀ b : Byte, ∃ i, decode (.byte b) = .ok i ∧ encode i = .byte b)

/-- R56: the command map, row by row. -/
def Obligations.CommandMapRowByRow : Prop :=
  ∀ v : Operand,
    decodeRecord (recordOf 0x0 v) = .ok (.enc8 v)
    ∧ decodeRecord (recordOf 0x1 v) = .ok (.enc16 v)
    ∧ decodeRecord (recordOf 0x2 v) = .ok (.enc32 v)
    ∧ decodeRecord (recordOf 0x3 v) = .ok (.enc64 v)
    ∧ decodeRecord (recordOf 0x4 v) = .ok .dec8
    ∧ decodeRecord (recordOf 0x5 v) = .ok .dec16
    ∧ decodeRecord (recordOf 0x6 v) = .ok .dec32
    ∧ decodeRecord (recordOf 0x7 v) = .ok .dec64
    ∧ decodeRecord (recordOf 0x8 v) = .error (.reservedCommand 0x8)
    ∧ decodeRecord (recordOf 0x9 v) = .error (.reservedCommand 0x9)
    ∧ decodeRecord (recordOf 0xA v) = .error (.reservedCommand 0xA)
    ∧ decodeRecord (recordOf 0xB v) = .error (.reservedCommand 0xB)
    ∧ decodeRecord (recordOf 0xC v) = .ok .decs8
    ∧ decodeRecord (recordOf 0xD v) = .ok .decs16
    ∧ decodeRecord (recordOf 0xE v) = .ok .decs32
    ∧ decodeRecord (recordOf 0xF v) = .ok .decs64

/-- R54, R55: where the fields of a record stand. -/
def Obligations.RecordFieldsStandWhereTheSpecPutsThem : Prop :=
  ∀ r : Record,
    (cmdOf r).toNat = r.toNat / 2 ^ 64
    ∧ (operandOf r).toNat = r.toNat % 2 ^ 64
    ∧ strictOf (cmdOf r) = r.getLsbD 67
    ∧ opOf (cmdOf r) = r.getLsbD 66
    ∧ (wselOf (cmdOf r)).toNat = r.toNat / 2 ^ 64 % 4
    ∧ width (wselOf (cmdOf r)) = 8 * 2 ^ (r.toNat / 2 ^ 64 % 4)

/-- R51: each of the 256 byte values belongs to exactly one class, and an encoding ends at its first `LASTB` byte, so that no
encoding is a proper prefix of another. -/
def Obligations.EveryByteHasOneClassAndEndsItsEncoding : Prop :=
  (∀ b : Byte, (0x80 ≤ b.toNat → decodeByte b = .contb (BitVec.ofNat 7 (b.toNat - 0x80)))
    ∧ (b.toNat < 0x80 → decodeByte b = .lastb (BitVec.ofNat 7 b.toNat)))
  ∧ (∀ a c : List Byte, isEncoding a = true → isEncoding (a ++ c) = true → c = [])
  ∧ (∀ (a c : List Byte) (b : Byte), (∀ x ∈ a, 0x80 ≤ x.toNat) → b.toNat < 0x80 →
      isEncoding (a ++ [b]) = true ∧ (isEncoding (a ++ b :: c) = true → c = []))

/-- R62: the nine bits of a source symbol; `BYTE` is ignored when `END` is set. -/
def Obligations.SourceSymbolBits : Prop :=
  ∀ w : SymbolBits,
    (0x100 ≤ w.toNat → decodeSymbol w = .eoi)
    ∧ (w.toNat < 0x100 → decodeSymbol w = .byte (BitVec.ofNat 8 w.toNat))

/-- A few words written out from R51 and R56 (95_test_vectors.md sections 2.2 and 4). -/
def Obligations.SampleWordsDecode : Prop :=
  decode (.record 0x20000000000098765#68) = .ok (.enc32 624485)
  ∧ decode (.record 0x38000000000000000#68) = .ok (.enc64 0x8000000000000000)
  ∧ decode (.record 0x40000000000000000#68) = .ok .dec8
  ∧ decode (.record 0xE0000000000000000#68) = .ok .decs32
  ∧ decode (.record 0x90000000000000005#68) = .error (.reservedCommand 0x9)
  ∧ decode (.byte 0xE5) = .ok (.contb 0x65)
  ∧ decode (.byte 0x26) = .ok (.lastb 0x26)

/-- R59, R60, R141: the response records as numbers. That a failing record carries `VALUE` = 0 is log 16: R60 says that is only what
the wires carry and that no claim should rest on it. -/
def Obligations.ResponseRecordBits : Prop :=
  (∀ n : BitVec 4, (EncResponse.mk n).bits = n)
  ∧ (∀ (v : BitVec 64) (n : BitVec 4), (DecResponse.ok v n).bits.toNat = n.toNat * 2 ^ 64 + v.toNat)
  ∧ (∀ n : BitVec 4,
      (DecResponse.error .unexpectedEndOfInput n).bits.toNat = 1 * 2 ^ 68 + n.toNat * 2 ^ 64
      ∧ (DecResponse.error .overflow n).bits.toNat = 2 * 2 ^ 68 + n.toNat * 2 ^ 64
      ∧ (DecResponse.error .nonCanonical n).bits.toNat = 3 * 2 ^ 68 + n.toNat * 2 ^ 64)

/-- R64, R4: `ENC.P v`, `DEC.P` and `DECS.P` expand to the commands whose codes hold `PTR_W`'s width select, whichever of the four
it is, at every pointer width and so at the host's. -/
def Obligations.PseudoCommandsShareOneWidth : Prop :=
  (∀ (w : BitVec 2) (v : Operand),
    decodeRecord (recordOf (0b00#2 ++ w : BitVec 4) v) = .ok (Pseudo.expandAt w (.encP v))
    ∧ decodeRecord (recordOf (0b01#2 ++ w : BitVec 4) v) = .ok (Pseudo.expandAt w .decP)
    ∧ decodeRecord (recordOf (0b11#2 ++ w : BitVec 4) v) = .ok (Pseudo.expandAt w .decsP))
  ∧ (∀ v : Operand,
    decodeRecord (recordOf (0b00#2 ++ Config.ptrWsel : BitVec 4) v) = .ok (Pseudo.encP v).expand
    ∧ decodeRecord (recordOf (0b01#2 ++ Config.ptrWsel : BitVec 4) v) = .ok Pseudo.decP.expand
    ∧ decodeRecord (recordOf (0b11#2 ++ Config.ptrWsel : BitVec 4) v) = .ok Pseudo.decsP.expand)

/-! ## A step runs the decoded instruction -/

/-- R54, R70, R90: on the command port's turn a step is exec of the offered record's instruction, the turn taken off the schedule. -/
def Obligations.StepRunsTheOfferedCommand : Prop :=
  ∀ (s : State) (ts : List Turn) (r : Record) (i : Instr),
    s.turns = .accept :: ts → s.port = some r → decode (.record r) = .ok i →
    step s = exec i { s with turns := ts }

/-- R36, R91: on the turn of a BUSY decoder a step is exec of the instruction the byte on offer decodes to, the turn taken off the
schedule; the meaning takes the byte from the source. -/
def Obligations.StepRunsTheSourceByte : Prop :=
  ∀ (s : State) (ts : List Turn) (b : Byte) (rest : List Symbol) (i : Instr),
    s.turns = .dec :: ts → s.dec.phase = .busy → s.source = .byte b :: rest → decode (.byte b) = .ok i →
    step s = exec i { s with turns := ts }

/-- R57: a reserved code is never accepted; the model gives it no transition. -/
def Obligations.ReservedCodeIsRefused : Prop :=
  ∀ (s : State) (ts : List Turn) (r : Record),
    s.turns = .accept :: ts → s.port = some r → 0x8 ≤ r.toNat / 2 ^ 64 → r.toNat / 2 ^ 64 ≤ 0xB →
    step s = .refused (.reservedCommand (BitVec.ofNat 4 (r.toNat / 2 ^ 64)))

/-- R57: a reserved record stays offered, whatever steps are taken beside it, until the host withdraws it. -/
def Obligations.ReservedRecordStaysUntilWithdrawn : Prop :=
  ∀ (s t : State) (r : Record),
    s.port = some r → 0x8 ≤ r.toNat / 2 ^ 64 → r.toNat / 2 ^ 64 ≤ 0xB → step s = .next t →
    (s.turns.head? ≠ some (.host .withdraw) → t.port = some r)
    ∧ (s.turns.head? = some (.host .withdraw) → t = { s with port := none, turns := s.turns.tail })

/-! ## Command accept (R70, R90) -/

/-- R70: encoder accept, for the four encode commands and for the record whose `CMD[3:2]` is 00: an IDLE encoder latches the width
and the operand's low W bits; a BUSY one is not disturbed and the record waits. -/
def Obligations.EncoderAcceptLatches : Prop :=
  ∀ (s : State) (v : Operand),
    (s.enc.phase = .idle →
      exec (.enc8 v) s = .next { s with enc := ⟨.busy, 0, BitVec.ofNat 64 (v.toNat % 2 ^ 8), 0⟩, port := none }
      ∧ exec (.enc16 v) s = .next { s with enc := ⟨.busy, 1, BitVec.ofNat 64 (v.toNat % 2 ^ 16), 0⟩, port := none }
      ∧ exec (.enc32 v) s = .next { s with enc := ⟨.busy, 2, BitVec.ofNat 64 (v.toNat % 2 ^ 32), 0⟩, port := none }
      ∧ exec (.enc64 v) s = .next { s with enc := ⟨.busy, 3, v, 0⟩, port := none })
    ∧ (s.enc.phase = .busy →
      exec (.enc8 v) s = .next s ∧ exec (.enc16 v) s = .next s
      ∧ exec (.enc32 v) s = .next s ∧ exec (.enc64 v) s = .next s)
    ∧ (∀ (ts : List Turn) (r : Record), s.turns = .accept :: ts → s.port = some r → r.toNat / 2 ^ 66 = 0 →
      s.enc.phase = .idle →
      let wsel := r.toNat / 2 ^ 64 % 4
      step s = .next { s with
        enc := ⟨.busy, BitVec.ofNat 2 wsel, BitVec.ofNat 64 (r.toNat % 2 ^ (8 * 2 ^ wsel)), 0⟩, port := none, turns := ts })

/-- R90: decoder accept, for the eight decode commands and for the record whose `CMD[2]` is 1. -/
def Obligations.DecoderAcceptStartsAfresh : Prop :=
  ∀ s : State,
    (s.dec.phase = .idle →
      exec .dec8 s = .next { s with dec := ⟨.busy, 0, false, 0, 0, 0⟩, port := none }
      ∧ exec .dec16 s = .next { s with dec := ⟨.busy, 1, false, 0, 0, 0⟩, port := none }
      ∧ exec .dec32 s = .next { s with dec := ⟨.busy, 2, false, 0, 0, 0⟩, port := none }
      ∧ exec .dec64 s = .next { s with dec := ⟨.busy, 3, false, 0, 0, 0⟩, port := none }
      ∧ exec .decs8 s = .next { s with dec := ⟨.busy, 0, true, 0, 0, 0⟩, port := none }
      ∧ exec .decs16 s = .next { s with dec := ⟨.busy, 1, true, 0, 0, 0⟩, port := none }
      ∧ exec .decs32 s = .next { s with dec := ⟨.busy, 2, true, 0, 0, 0⟩, port := none }
      ∧ exec .decs64 s = .next { s with dec := ⟨.busy, 3, true, 0, 0, 0⟩, port := none })
    ∧ (s.dec.phase = .busy →
      exec .dec8 s = .next s ∧ exec .dec16 s = .next s ∧ exec .dec32 s = .next s ∧ exec .dec64 s = .next s
      ∧ exec .decs8 s = .next s ∧ exec .decs16 s = .next s ∧ exec .decs32 s = .next s ∧ exec .decs64 s = .next s)
    ∧ (∀ (ts : List Turn) (r : Record), s.turns = .accept :: ts → s.port = some r → r.getLsbD 66 = true →
      s.dec.phase = .idle →
      step s = .next { s with
        dec := ⟨.busy, BitVec.ofNat 2 (r.toNat / 2 ^ 64 % 4), r.getLsbD 67, 0, 0, 0⟩, port := none, turns := ts })

/-- R58: operand bits at and above W do not matter to an encode, and no operand bit matters to a decode. -/
def Obligations.IgnoredOperandBitsDoNotMatter : Prop :=
  (∀ (s : State) (v v' : Operand),
    (v.toNat % 2 ^ 8 = v'.toNat % 2 ^ 8 → exec (.enc8 v) s = exec (.enc8 v') s)
    ∧ (v.toNat % 2 ^ 16 = v'.toNat % 2 ^ 16 → exec (.enc16 v) s = exec (.enc16 v') s)
    ∧ (v.toNat % 2 ^ 32 = v'.toNat % 2 ^ 32 → exec (.enc32 v) s = exec (.enc32 v') s))
  ∧ (∀ (c : BitVec 4) (v v' : Operand), c.getLsbD 2 = true → decodeRecord (recordOf c v) = decodeRecord (recordOf c v'))

/-- The frame of the twelve commands (R10, R32, R70, R90, R135): nothing but the registers of the command's own unit and the command port
changes. -/
def Obligations.CommandsChangeTheirUnitOnly : Prop :=
  ∀ (s t : State) (v : Operand) (i : Instr),
    i ∈ [.enc8 v, .enc16 v, .enc32 v, .enc64 v, .dec8, .dec16, .dec32, .dec64, .decs8, .decs16, .decs32, .decs64] →
    exec i s = .next t →
    t.sink = s.sink ∧ t.sinkReady = s.sinkReady ∧ t.source = s.source ∧ t.sourceEnded = s.sourceEnded
    ∧ t.encOut = s.encOut ∧ t.decOut = s.decOut ∧ t.turns = s.turns ∧ t.draws = s.draws
    ∧ (i ∈ [.enc8 v, .enc16 v, .enc32 v, .enc64 v] → t.dec = s.dec)
    ∧ (i ∈ [.dec8, .dec16, .dec32, .dec64, .decs8, .decs16, .decs32, .decs64] → t.enc = s.enc)
    ∧ (t.port = s.port ∨ t.port = none)

/-! ## The encoder (40_encoder.md) -/

/-- R71: the encoder step, one byte appended. That `ENC.CNT` keeps its value once the unit is IDLE is log 6 (deduced from R71's
pseudocode; R25 leaves it open). -/
def Obligations.EncoderStepEmitsOneByte : Prop :=
  ∀ (s : State) (ts : List Turn),
    s.turns = .enc :: ts → s.enc.phase = .busy → s.sinkReady = true →
    (s.enc.x.toNat / 128 ≠ 0 →
      step s = .next { s with
        sink := s.sink ++ [BitVec.ofNat 8 (128 + s.enc.x.toNat % 128)]
        enc := ⟨.busy, s.enc.wsel, BitVec.ofNat 64 (s.enc.x.toNat / 128), s.enc.cnt + 1⟩
        turns := ts })
    ∧ (s.enc.x.toNat / 128 = 0 →
      step s = .next { s with
        sink := s.sink ++ [BitVec.ofNat 8 (s.enc.x.toNat % 128)]
        enc := ⟨.idle, s.enc.wsel, 0, s.enc.cnt⟩
        encOut := s.encOut ++ [⟨s.enc.cnt + 1⟩]
        turns := ts })

/-- R120, R77, R79, R136: an encode command from the port runs to its response under every schedule without a reset whose steps are
not refused and that holds MAXLEN(W) encoder turns at which the sink is ready, whatever else it holds (waits for the sink,
decoder turns, decode commands offered, accepted and answered): after some of its steps the sink has grown by `encode_W(o)`,
once, and the response's `COUNT` is its length. A schedule that offers no record is not refused, and at its end nothing more
has happened. -/
def Obligations.EncodeRunsToCompletion : Prop :=
  ∀ (s : State) (r : Record) (w : BitVec 2) (v : Operand) (ts rest : List Turn),
    s.enc.phase = .idle → s.port = some r → decodeRecord r = .ok (encInstr w v) →
    s.turns = .accept :: (ts ++ rest) → .host .reset ∉ ts → maxLen (width w) ≤ readyEncTurns s.sinkReady ts →
    (∀ t, runSteps (ts.length + 1) s = .next t →
      ∃ m u, m ≤ ts.length + 1 ∧ runSteps m s = .next u
        ∧ u.sink = s.sink ++ encodeW (width w) v.toNat
        ∧ u.encOut = s.encOut ++ [⟨BitVec.ofNat 4 (encodeW (width w) v.toNat).length⟩]
        ∧ u.enc.phase = .idle)
    ∧ ((∀ u ∈ ts, u = .enc ∨ u.besideEnc = true) →
      ∃ t, runSteps (ts.length + 1) s = .next t
        ∧ t.sink = s.sink ++ encodeW (width w) v.toNat
        ∧ t.encOut = s.encOut ++ [⟨BitVec.ofNat 4 (encodeW (width w) v.toNat).length⟩]
        ∧ t.enc.phase = .idle ∧ t.port = none ∧ t.turns = rest)

/-- R166: a reset after k bytes of an encode leaves in the sink a proper prefix of the encoding, all `CONTB` bytes, and no response. -/
def Obligations.AbandonedEncodeLeavesAPrefix : Prop :=
  ∀ (s : State) (w : BitVec 2) (v : Operand) (k : Nat) (rest : List Turn),
    s.enc = ⟨.busy, w, BitVec.ofNat 64 (v.toNat % 2 ^ width w), 0⟩ → s.sinkReady = true →
    s.turns = List.replicate k .enc ++ (.host .reset :: rest) → k < (encodeW (width w) v.toNat).length →
    ∃ t, runSteps (k + 1) s = .next t
      ∧ t.sink = s.sink ++ (encodeW (width w) v.toNat).take k
      ∧ (∀ b ∈ (encodeW (width w) v.toNat).take k, 0x80 ≤ b.toNat)
      ∧ t.encOut = s.encOut ∧ t.decOut = s.decOut ∧ t.enc.phase = .idle ∧ t.dec.phase = .idle
      ∧ t.source = s.source ∧ t.turns = rest

/-- R76: zero encodes as the single byte `00`, at every width, in one step. -/
def Obligations.ZeroEncodesAsOneByte : Prop :=
  (∀ w : Nat, encodeW w 0 = [0x00])
  ∧ (∀ (s : State) (ts : List Turn),
      s.turns = .enc :: ts → s.enc.phase = .busy → s.enc.x = 0 → s.enc.cnt = 0 → s.sinkReady = true →
      ∃ t, step s = .next t ∧ t.sink = s.sink ++ [0x00] ∧ t.encOut = s.encOut ++ [⟨1⟩] ∧ t.enc.phase = .idle)

/-- R78: the i-th byte of an encoding is the i-th group, its flag set on every byte but the last; the last group is not zero unless it
is the only one. -/
def Obligations.EncodingBytesAreTheGroups : Prop :=
  ∀ w v : Nat, v < 2 ^ w →
    (∀ i, i < (encodeW w v).length →
      (encodeW w v)[i]? =
        some (BitVec.ofNat 8 ((if i + 1 < (encodeW w v).length then 128 else 0) + v / 2 ^ (7 * i) % 128)))
    ∧ (1 < (encodeW w v).length → v / 2 ^ (7 * ((encodeW w v).length - 1)) % 128 ≠ 0)
    ∧ v / 2 ^ (7 * (encodeW w v).length) = 0

/-- R123: the encoding of v is well formed and its value is v. -/
def Obligations.EncodingIsWellFormedWithItsValue : Prop :=
  ∀ w v : Nat, v < 2 ^ w → isEncoding (encodeW w v) = true ∧ encodingValue (encodeW w v) = v

/-- R125: the length is ceil(max(1, bit_length(v)) / 7), which is the least n ≥ 1 with v < 2^(7n). -/
def Obligations.EncodingLengthIsMinimal : Prop :=
  ∀ w v : Nat, v < 2 ^ w →
    (encodeW w v).length = (max 1 (bitLength v) + 6) / 7
    ∧ 1 ≤ (encodeW w v).length ∧ v < 2 ^ (7 * (encodeW w v).length)
    ∧ (∀ n, 1 ≤ n → v < 2 ^ (7 * n) → (encodeW w v).length ≤ n)
    ∧ (v ≤ 127 → (encodeW w v).length = 1) ∧ (128 ≤ v → v ≤ 16383 → (encodeW w v).length = 2)

/-- R127: MAXLEN(W) is the length of the encoding of 2^W - 1, the largest length the encoder produces and the largest count of an OK
or NonCanonical decode; 2, 3, 5, 10 at the hardware's widths. -/
def Obligations.MaximumLengths : Prop :=
  (∀ w : Nat, 1 ≤ w →
    (encodeW w (2 ^ w - 1)).length = maxLen w
    ∧ (∀ v, (encodeW w v).length ≤ maxLen w)
    ∧ (∀ bytes st v n, decodeW w bytes st = .ok v n → n ≤ maxLen w)
    ∧ (∀ bytes st n, decodeW w bytes st = .error .nonCanonical n → n ≤ maxLen w)
    ∧ (∃ bytes v, decodeW w bytes false = .ok v (maxLen w)))
  ∧ maxLen 8 = 2 ∧ maxLen 16 = 3 ∧ maxLen 32 = 5 ∧ maxLen 64 = 10

/-- R72 to R75: the last byte of a longest encoding at each of the four widths. -/
def Obligations.LastByteOfALongestEncoding : Prop :=
  ∀ (k : BitVec 2) (v : Nat),
    (encodeW (width k) v).length = maxLen (width k) →
    ∃ b : Byte, (encodeW (width k) v).getLast? = some b ∧ 1 ≤ b.toNat ∧
      b.toNat ≤ (if k = 0 then 0x01 else if k = 1 then 0x03 else if k = 2 then 0x0F else 0x01)

/-- Worked examples of R72 to R75 and R129. -/
def Obligations.EncoderWorkedExamples : Prop :=
  encodeW 8 200 = [0xC8, 0x01] ∧ encodeW 8 0x1FF = [0xFF, 0x01]
  ∧ encodeW 16 300 = [0xAC, 0x02] ∧ encodeW 16 0x12345 = [0xC5, 0x46]
  ∧ encodeW 32 624485 = [0xE5, 0x8E, 0x26] ∧ encodeW 32 0xFFFFFFFF = [0xFF, 0xFF, 0xFF, 0xFF, 0x0F]
  ∧ encodeW 64 0x100000000 = [0x80, 0x80, 0x80, 0x80, 0x10]
  ∧ encodeW 64 (2 ^ 64 - 1) = [0xFF, 0xFF, 0xFF, 0xFF, 0xFF, 0xFF, 0xFF, 0xFF, 0xFF, 0x01]

/-! ## The decoder (41_decoder.md) -/

/-- R91: the decoder step, one symbol taken; the branches in D00's order. What the working registers hold after a response is left
open. -/
def Obligations.DecoderStepFollowsTheAlgorithm : Prop :=
  ∀ (s : State) (ts : List Turn) (sym : Symbol),
    s.turns = .dec :: ts → s.dec.phase = .busy → srcPeek s = some sym →
    ∃ t, step s = .next t
      ∧ t.source = s.source.tail ∧ t.turns = ts
      ∧ t.enc = s.enc ∧ t.port = s.port ∧ t.sink = s.sink ∧ t.sinkReady = s.sinkReady
      ∧ t.sourceEnded = s.sourceEnded ∧ t.encOut = s.encOut
      ∧ t.dec.wsel = s.dec.wsel ∧ t.dec.strict = s.dec.strict
      ∧ match sym with
        | .eoi => t.dec.phase = .idle ∧ t.decOut = s.decOut ++ [.error .unexpectedEndOfInput s.dec.cnt]
        | .byte b =>
          let w := width s.dec.wsel
          let shift := s.dec.shift.toNat
          let g := b.toNat % 128
          let res := s.dec.result ||| BitVec.ofNat 64 (g * 2 ^ shift)
          if w ≤ shift ∨ (w < shift + 7 ∧ g / 2 ^ (w - shift) ≠ 0) then
            t.dec.phase = .idle ∧ t.decOut = s.decOut ++ [.error .overflow (s.dec.cnt + 1)]
          else if b.toNat < 128 then
            t.dec.phase = .idle ∧
            if s.dec.strict = true ∧ g = 0 ∧ 1 < (s.dec.cnt + 1).toNat then
              t.decOut = s.decOut ++ [.error .nonCanonical (s.dec.cnt + 1)]
            else t.decOut = s.decOut ++ [.ok res (s.dec.cnt + 1)]
          else
            t.decOut = s.decOut ∧ t.dec.phase = .busy ∧ t.dec.result = res
            ∧ t.dec.shift = s.dec.shift + 7 ∧ t.dec.cnt = s.dec.cnt + 1

/-- R91: a `CONTB` byte that is not offending is accumulated and the command goes on. -/
def Obligations.ContinuationByteAccumulates : Prop :=
  ∀ (s : State) (g : Group),
    s.dec.phase = .busy → s.dec.shift.toNat < width s.dec.wsel →
    g.toNat * 2 ^ s.dec.shift.toNat < 2 ^ width s.dec.wsel →
    exec (.contb g) s = .next { s with
      source := s.source.tail
      dec := ⟨.busy, s.dec.wsel, s.dec.strict, s.dec.result ||| BitVec.ofNat 64 (g.toNat * 2 ^ s.dec.shift.toNat),
              s.dec.shift + 7, s.dec.cnt + 1⟩ }

/-- R91: a `LASTB` byte that is not offending, and not padding under a strict command, ends the command with OK. -/
def Obligations.LastByteAnswersOk : Prop :=
  ∀ (s : State) (g : Group),
    s.dec.phase = .busy → s.dec.shift.toNat < width s.dec.wsel →
    g.toNat * 2 ^ s.dec.shift.toNat < 2 ^ width s.dec.wsel →
    (s.dec.strict = false ∨ g ≠ 0 ∨ s.dec.cnt = 0) →
    ∃ t, exec (.lastb g) s = .next t
      ∧ t.decOut = s.decOut ++ [.ok (s.dec.result ||| BitVec.ofNat 64 (g.toNat * 2 ^ s.dec.shift.toNat)) (s.dec.cnt + 1)]
      ∧ t.dec.phase = .idle ∧ t.dec.wsel = s.dec.wsel ∧ t.dec.strict = s.dec.strict
      ∧ t.source = s.source.tail

/-- R94, R144: a strict command answers NonCanonical to a terminating zero group that is not the first byte's and not offending; a
lenient command never does. -/
def Obligations.PaddedLastByteIsNonCanonical : Prop :=
  (∀ (s : State) (g : Group),
    DecInv s → s.dec.phase = .busy → s.dec.strict = true → g = 0 → s.dec.cnt ≠ 0 →
    s.dec.cnt.toNat < maxLen (width s.dec.wsel) →
    ∃ t, exec (.lastb g) s = .next t
      ∧ t.decOut = s.decOut ++ [.error .nonCanonical (s.dec.cnt + 1)]
      ∧ t.dec.phase = .idle ∧ t.source = s.source.tail)
  ∧ (∀ (s t : State) (i : Instr) (n : BitVec 4), s.dec.strict = false → exec i s = .next t →
      t.decOut ≠ s.decOut ++ [.error .nonCanonical n])

/-- R143: an offending byte, by its index or by its value, ends the command with Overflow, whatever its continuation bit, and the
bytes after it are not looked at. -/
def Obligations.OffendingByteOverflows : Prop :=
  ∀ (s : State) (g : Group) (i : Instr),
    DecInv s → s.dec.phase = .busy → i = .contb g ∨ i = .lastb g →
    maxLen (width s.dec.wsel) ≤ s.dec.cnt.toNat ∨ 2 ^ width s.dec.wsel ≤ g.toNat * 2 ^ (7 * s.dec.cnt.toNat) →
    ∃ t, exec i s = .next t
      ∧ t.decOut = s.decOut ++ [.error .overflow (s.dec.cnt + 1)]
      ∧ t.dec.phase = .idle ∧ t.source = s.source.tail

/-- The frame of the two byte classes (R10, R32, R135): a byte changes the decoder's own registers, takes the front of the source,
and answers at most one response; an IDLE decoder takes nothing. -/
def Obligations.BytesChangeTheDecoderOnly : Prop :=
  ∀ (s t : State) (g : Group) (i : Instr),
    i = .contb g ∨ i = .lastb g → exec i s = .next t →
    t.enc = s.enc ∧ t.port = s.port ∧ t.sink = s.sink ∧ t.sinkReady = s.sinkReady
    ∧ t.sourceEnded = s.sourceEnded ∧ t.encOut = s.encOut ∧ t.turns = s.turns
    ∧ t.dec.wsel = s.dec.wsel ∧ t.dec.strict = s.dec.strict
    ∧ (s.dec.phase = .idle → t = s)
    ∧ (s.dec.phase = .busy → t.source = s.source.tail)
    ∧ (t.decOut = s.decOut ∨ ∃ r, t.decOut = s.decOut ++ [r])

/-- R93: which byte index and group are offending at the hardware's widths, as the rule's table has it. -/
def Obligations.OverflowTestTable : Prop :=
  ∀ (k : BitVec 2) (i : Nat) (g : Group),
    let last := if k = 0 then 1 else if k = 1 then 2 else if k = 2 then 4 else 9
    let limit := if k = 0 then 0x01 else if k = 1 then 0x03 else if k = 2 then 0x0F else 0x01
    (offending (width k) (7 * i) g = true ↔ last < i ∨ (i = last ∧ limit < g.toNat))

/-- R122 (d), (e): once the overflow test has passed, no bit is shifted out of the W-bit result and OR is addition. -/
def Obligations.NoBitIsLostInTheAccumulator : Prop :=
  ∀ (w : BitVec 2) (result : BitVec 64) (shift : BitVec 7) (g : Group),
    result.toNat < 2 ^ (min (width w) shift.toNat) → offending (width w) shift.toNat g = false →
    (accumulate result shift g).toNat = result.toNat + g.toNat * 2 ^ shift.toNat
    ∧ (accumulate result shift g).toNat < 2 ^ width w

/-- R34, R36, R71, R91: the encoder waits for its sink and the decoder for a symbol, silence being no `End`; an IDLE unit does
nothing. That the turn is then used up is the model's choice (log 2). -/
def Obligations.UnitsWaitOnTheirPorts : Prop :=
  ∀ (s : State) (ts : List Turn),
    (s.turns = .enc :: ts → s.enc.phase = .idle ∨ s.sinkReady = false → step s = .next { s with turns := ts })
    ∧ (s.turns = .dec :: ts → s.dec.phase = .idle ∨ (s.source = [] ∧ s.sourceEnded = false) →
      step s = .next { s with turns := ts })

/-- R121, R41, R105, R136: a decode command from the port runs to its response under every schedule without a reset whose steps are not
refused and that holds MAXREAD(W) decoder turns at which a symbol is on offer, whatever else it holds (waits for a lazy
source, symbols handed over meanwhile, encoder turns, encode commands offered, accepted and answered): after some of its
steps the one response is `decode_W(s, st)` of the bytes found before End, and the source has lost exactly the symbols
taken. On a buffer, a schedule that offers no record is not refused, and at its end nothing more has happened. -/
def Obligations.DecodeRunsToCompletion : Prop :=
  ∀ (s : State) (r : Record) (w : BitVec 2) (st : Bool) (ts rest : List Turn),
    s.dec.phase = .idle → s.port = some r →
    decodeRecord r = .ok (if st = true then decsInstr w else decInstr w) →
    s.turns = .accept :: (ts ++ rest) → .host .reset ∉ ts →
    (maxRead (width w) ≤ (symbolsFound s.sourceEnded s.source ts).length →
      ∀ t, runSteps (ts.length + 1) s = .next t →
      let result := decodeW (width w) (bytesBeforeEnd (symbolsFound s.sourceEnded s.source ts)) st
      ∃ m u, m ≤ ts.length ∧ runSteps (m + 1) s = .next u
        ∧ u.decOut = s.decOut ++ [result.response]
        ∧ u.source = (s.source ++ (ts.take m).filterMap Turn.handed).drop result.symbolsTaken
        ∧ u.dec.phase = .idle)
    ∧ (∀ bytes : List Byte, s.source = bytes.map Symbol.byte → s.sourceEnded = true →
      (∀ u ∈ ts, u = .dec ∨ u.besideDec = true) → maxRead (width w) ≤ ts.count .dec →
      ∃ t, runSteps (ts.length + 1) s = .next t
        ∧ t.decOut = s.decOut ++ [(decodeW (width w) bytes st).response]
        ∧ t.source = (bytes.drop (decodeW (width w) bytes st).count).map Symbol.byte
        ∧ t.dec.phase = .idle ∧ t.port = none ∧ t.turns = rest)

/-- Worked examples of R95 to R102, R103 and R129. -/
def Obligations.DecoderWorkedExamples : Prop :=
  decodeW 8 [0x80] false = .error .unexpectedEndOfInput 1
  ∧ decodeW 8 [] false = .error .unexpectedEndOfInput 0
  ∧ decodeW 8 [0xC8, 0x01, 0xAA] false = .ok 200 2
  ∧ decodeW 8 [0x80, 0x80, 0x00] false = .error .overflow 3
  ∧ decodeW 8 [0xFF, 0xFF, 0x7F] false = .error .overflow 2
  ∧ decodeW 16 [0xE5, 0x8E, 0x26] false = .error .overflow 3
  ∧ decodeW 32 [0xE5, 0x8E, 0x26] false = .ok 624485 3
  ∧ decodeW 32 [0x80, 0x80, 0x00] false = .ok 0 3
  ∧ decodeW 32 [0x80, 0x80, 0x00] true = .error .nonCanonical 3
  ∧ decodeW 64 [0xFF, 0xFF, 0xFF, 0xFF, 0xFF, 0xFF, 0xFF, 0xFF, 0xFF, 0x01] true = .ok (2 ^ 64 - 1) 10
  ∧ decodeW 64 [0x80, 0x80, 0x80, 0x80, 0x80, 0x80, 0x80, 0x80, 0x80, 0x80, 0x00] false = .error .overflow 11

/-! ## The laws (42_laws.md) -/

/-- R124: the round trip, for every representable value, every tail and both policies. -/
def Obligations.EncodeThenDecodeRoundTrips : Prop :=
  ∀ (w v : Nat) (tail : List Byte) (st : Bool), 1 ≤ w → v < 2 ^ w →
    decodeW w (encodeW w v ++ tail) st = .ok v (encodeW w v).length

/-- R126: the closed form of the overflow test and of acceptance. -/
def Obligations.AcceptanceInClosedForm : Prop :=
  (∀ (w : Nat) (bytes : List Byte) (i : Nat) (b : Byte),
    bytes[i]? = some b →
    (∀ j c, j < i → bytes[j]? = some c → offending w (7 * j) (groupOf c) = false) →
    (offending w (7 * i) (groupOf b) = true ↔ maxLen w ≤ i ∨ 2 ^ w ≤ encodingValue (bytes.take (i + 1))))
  ∧ (∀ (w : Nat) (bytes : List Byte) (v n : Nat), 1 ≤ w →
      (decodeW w bytes false = .ok v n ↔
        n ≤ bytes.length ∧ n ≤ maxLen w ∧ isEncoding (bytes.take n) = true
        ∧ v = encodingValue (bytes.take n) ∧ v < 2 ^ w))

/-- R130: an encoding is canonical when and only when it is one byte long or its last group is not zero; a strict decode accepts
exactly the canonical encodings a lenient one accepts, rejects the others as NonCanonical, and agrees on every failure. -/
def Obligations.StrictAcceptsExactlyCanonical : Prop :=
  (∀ bytes : List Byte, isEncoding bytes = true →
    (bytes = encBytes (encodingValue bytes) ↔
      bytes.length = 1 ∨ ∃ b, bytes.getLast? = some b ∧ b.toNat % 128 ≠ 0))
  ∧ (∀ (w : Nat) (bytes : List Byte), 1 ≤ w →
      (∀ v n, decodeW w bytes true = .ok v n ↔ decodeW w bytes false = .ok v n ∧ bytes.take n = encodeW w v)
      ∧ (∀ n, decodeW w bytes true = .error .nonCanonical n ↔
          ∃ v, decodeW w bytes false = .ok v n ∧ bytes.take n ≠ encodeW w v)
      ∧ (∀ tag n, decodeW w bytes false = .error tag n ↔ decodeW w bytes true = .error tag n ∧ tag ≠ .nonCanonical))

/-- R131: the accepted encodings of a value at width W are the canonical one and the same with zero groups of padding, up to
MAXLEN(W) bytes in all. -/
def Obligations.AcceptedEncodingsOfAValue : Prop :=
  ∀ (w v : Nat) (bytes : List Byte), 1 ≤ w → v < 2 ^ w →
    (decodeW w bytes false = .ok v bytes.length ↔
      ∃ k, (encodeW w v).length + k ≤ maxLen w ∧ bytes = paddedEnc v k ∧ bytes.length = (encodeW w v).length + k)

/-- R134: widening keeps every OK; an error at the wider width is an error at the narrower one; an end of input at the wider width
becomes the same or an Overflow. -/
def Obligations.WideningKeepsDecodes : Prop :=
  (∀ (w w' : Nat) (bytes : List Byte) (st : Bool), 1 ≤ w → w ≤ w' →
    (∀ v n, decodeW w bytes st = .ok v n → decodeW w' bytes st = .ok v n)
    ∧ (∀ tag' n', decodeW w' bytes st = .error tag' n' → ∃ tag n, decodeW w bytes st = .error tag n)
    ∧ (decodeW w' bytes st = .error .unexpectedEndOfInput bytes.length →
        decodeW w bytes st = .error .unexpectedEndOfInput bytes.length
        ∨ ∃ n, decodeW w bytes st = .error .overflow n))
  ∧ (∃ v, decodeW 32 [0xE5, 0x8E, 0x26] false = .ok v 3) ∧ ∃ n, decodeW 16 [0xE5, 0x8E, 0x26] false = .error .overflow n

/-- R132: a stream of encodings decodes in order, each at its own width, and is then exhausted. -/
def Obligations.StreamsDecodeInOrder : Prop :=
  ∀ (items : List (Nat × Nat)) (st : Bool), (∀ p ∈ items, 1 ≤ p.1 ∧ p.2 < 2 ^ p.1) →
    let stream := (items.map fun p => encodeW p.1 p.2).flatten
    decodeStream st (items.map Prod.fst) stream = items.map (fun p => .ok p.2 (encodeW p.1 p.2).length)
    ∧ stream.drop ((decodeStream st (items.map Prod.fst) stream).map DecodeResult.count).sum = []

/-- R177: a decode started in the middle of an encoding reports the remaining groups as a value of their own. -/
def Obligations.DecodeFromTheMiddleOfAnEncoding : Prop :=
  ∀ (w v k : Nat) (st : Bool), 1 ≤ w → v < 2 ^ w → k < (encodeW w v).length →
    decodeW w ((encodeW w v).drop k) st = .ok (v / 2 ^ (7 * k)) ((encodeW w v).length - k)

/-- R106, R121: a decode depends on the first MAXREAD(W) bytes only, and on none after the ones it counts. -/
def Obligations.DecodeDependsOnItsFirstBytes : Prop :=
  ∀ (w : Nat) (bytes bytes' : List Byte) (st : Bool), 1 ≤ w →
    (bytes.take (maxRead w) = bytes'.take (maxRead w) → decodeW w bytes st = decodeW w bytes' st)
    ∧ (decodeW w bytes st ≠ .error .unexpectedEndOfInput bytes.length →
        decodeW w (bytes.take (decodeW w bytes st).count ++ bytes') st = decodeW w bytes st)

/-- R60, R92, R128: the range of `COUNT` in every outcome. -/
def Obligations.ResponseCountRanges : Prop :=
  ∀ (w : Nat) (bytes : List Byte) (st : Bool), 7 ≤ w →
    match decodeW w bytes st with
    | .ok v n => 1 ≤ n ∧ n ≤ maxLen w ∧ n ≤ bytes.length ∧ v < 2 ^ w
    | .error .unexpectedEndOfInput n => n = bytes.length ∧ n ≤ maxLen w
    | .error .overflow n => 2 ≤ n ∧ n ≤ maxRead w ∧ n ≤ bytes.length
    | .error .nonCanonical n => st = true ∧ 2 ≤ n ∧ n ≤ maxLen w ∧ n ≤ bytes.length

/-! ## The whole machine -/

/-- R26: every step keeps the invariants of both units. -/
def Obligations.StepKeepsTheInvariants : Prop :=
  ∀ s t : State, s.Inv → step s = .next t → t.Inv

/-- R26, R27, R181: the invariants hold right after reset, and no command is running, waiting or still to come there. The empty port
and the empty schedule are the model's choice (log 4). -/
def Obligations.ResetMeetsTheInvariants : Prop := State.reset.Inv ∧ State.reset.runOver

/-- R27: the ten registers after reset. -/
def Obligations.ResetRegisterTable : Prop :=
  State.reset.enc.phase.bit = 0 ∧ State.reset.enc.wsel = 0 ∧ State.reset.enc.x = 0 ∧ State.reset.enc.cnt = 0
  ∧ State.reset.dec.phase.bit = 0 ∧ State.reset.dec.wsel = 0 ∧ State.reset.dec.strict = false
  ∧ State.reset.dec.result = 0 ∧ State.reset.dec.shift = 0 ∧ State.reset.dec.cnt = 0

/-- R165, R166, R167: reset puts both units IDLE, clears every other register, and touches nothing outside the block. -/
def Obligations.ResetTouchesTheRegistersOnly : Prop :=
  ∀ (s : State) (ts : List Turn), s.turns = .host .reset :: ts →
    step s = .next { s with enc := ⟨.idle, 0, 0, 0⟩, dec := ⟨.idle, 0, false, 0, 0, 0⟩, turns := ts }

/-- R135: a step of one unit reads and writes nothing of the other, and steps of the two units commute. -/
def Obligations.UnitStepsCommute : Prop :=
  ∀ s : State,
    andThen (takeTurn .enc s) (takeTurn .dec) = andThen (takeTurn .dec s) (takeTurn .enc)
    ∧ (∀ t, takeTurn .enc s = .next t → t.dec = s.dec ∧ t.source = s.source ∧ t.decOut = s.decOut)
    ∧ (∀ t, takeTurn .dec s = .next t → t.enc = s.enc ∧ t.sink = s.sink ∧ t.encOut = s.encOut)

/-- R136: what a unit does on its turn depends on its own registers and its own port alone. -/
def Obligations.UnitStepDependsOnItsOwnSide : Prop :=
  (∀ s t : State, s.enc = t.enc → s.sinkReady = t.sinkReady →
    ∃ s' t', takeTurn .enc s = .next s' ∧ takeTurn .enc t = .next t' ∧ s'.enc = t'.enc
      ∧ ∃ bytes resps, s'.sink = s.sink ++ bytes ∧ t'.sink = t.sink ++ bytes
        ∧ s'.encOut = s.encOut ++ resps ∧ t'.encOut = t.encOut ++ resps)
  ∧ (∀ s t : State, s.dec = t.dec → srcPeek s = srcPeek t →
    ∃ s' t', takeTurn .dec s = .next s' ∧ takeTurn .dec t = .next t' ∧ s'.dec.phase = t'.dec.phase
      ∧ (s'.dec.phase = .busy → s'.dec = t'.dec)
      ∧ ∃ resps, s'.decOut = s.decOut ++ resps ∧ t'.decOut = t.decOut ++ resps)

/-- R46: the record is sampled once, at accept: a unit's step neither reads nor changes the command port. -/
def Obligations.RunningCommandIgnoresThePort : Prop :=
  ∀ (s t : State) (u : Turn) (p : Option Record), u = .enc ∨ u = .dec →
    takeTurn u s = .next t → t.port = s.port ∧ takeTurn u { s with port := p } = .next { t with port := p }

/-- R25: the registers of an IDLE unit reach no output: two states that differ in nothing else step alike, look alike afterwards,
and again differ in nothing else. -/
def Obligations.IdleRegistersReachNoOutput : Prop :=
  ∀ s t : State, s.forgetIdle = t.forgetIdle →
    match step s, step t with
    | .next s', .next t' => s'.forgetIdle = t'.forgetIdle ∧ s'.observe = t'.observe
    | .refused a, .refused b => a = b
    | .fault _, _ => False
    | _, _ => False

/-- R44, R57, R155, R170: no step faults, and a step is refused only on a reserved code at accept or on a host's breach (log 9,
log 10). -/
def Obligations.StepsNeverFaultAndRefuseOnlyBreaches : Prop :=
  (∀ (s : State) (f : Fault), step s ≠ .fault f)
  ∧ ∀ (s : State) (reason : Refusal), step s = .refused reason →
    (∃ ts r, s.turns = .accept :: ts ∧ s.port = some r ∧ 0x8 ≤ r.toNat / 2 ^ 64 ∧ r.toNat / 2 ^ 64 ≤ 0xB
      ∧ reason = .reservedCommand (BitVec.ofNat 4 (r.toNat / 2 ^ 64)))
    ∨ (∃ ts r, s.turns = .host (.offer r) :: ts ∧ s.port ≠ none ∧ reason = .portOccupied)
    ∨ (∃ ts r i, s.turns = .host .withdraw :: ts ∧ s.port = some r ∧ decodeRecord r = .ok i ∧ reason = .recordNotHeld)
    ∨ (∃ ts act, s.turns = .host act :: ts ∧ s.enc.phase = .busy ∧ reason = .sharedSink
      ∧ ((∃ bytes, act = .replaceSink bytes) ∨ ∃ off, act = .presentSink off))
    ∨ (∃ ts act, s.turns = .host act :: ts ∧ s.dec.phase = .busy ∧ reason = .sharedSource
      ∧ ((∃ syms e, act = .replaceSource syms e) ∨ ∃ off, act = .presentSink off))

/-- R60, R91, R140, R147: a decode ends with exactly one response, given by the step that takes it from BUSY to IDLE, and no other
step but reset ends it (R166); R59, R71: the same of an encode and its response. -/
def Obligations.OneResponsePerCommand : Prop :=
  ∀ s t : State, step s = .next t → s.turns.head? ≠ some (.host .reset) →
    ((s.dec.phase = .busy ∧ t.dec.phase = .idle) → ∃ r, t.decOut = s.decOut ++ [r])
    ∧ (¬(s.dec.phase = .busy ∧ t.dec.phase = .idle) → t.decOut = s.decOut)
    ∧ ((s.enc.phase = .busy ∧ t.enc.phase = .idle) → ∃ r, t.encOut = s.encOut ++ [r])
    ∧ (¬(s.enc.phase = .busy ∧ t.enc.phase = .idle) → t.encOut = s.encOut)

/-- R33: what the sink holds is kept; a step appends at most one byte to it, and only a BUSY encoder's turn appends. -/
def Obligations.SinkIsAppendOnly : Prop :=
  ∀ s t : State, step s = .next t → (∀ bytes, s.turns.head? ≠ some (.host (.replaceSink bytes))) →
    ∃ bytes, t.sink = s.sink ++ bytes ∧ bytes.length ≤ 1
      ∧ (bytes ≠ [] → s.turns.head? = some .enc ∧ s.enc.phase = .busy ∧ s.sinkReady = true)

/-- R30, R41: the block takes a symbol from the source on a BUSY decoder's turn only, the one at the front, and never writes to
the source. -/
def Obligations.SourceIsTakenFromTheFront : Prop :=
  ∀ s t : State, step s = .next t → (∀ act, s.turns.head? ≠ some (.host act)) →
    t.sourceEnded = s.sourceEnded
    ∧ ((s.turns.head? = some .dec ∧ s.dec.phase = .busy) → t.source = s.source.tail)
    ∧ (¬(s.turns.head? = some .dec ∧ s.dec.phase = .busy) → t.source = s.source)

/-- R44, R171: touching the sink of a running encode or the source of a running decode is refused. -/
def Obligations.SharedBuffersAreRefused : Prop :=
  ∀ (s : State) (ts : List Turn),
    (∀ bytes, s.enc.phase = .busy → s.turns = .host (.replaceSink bytes) :: ts → step s = .refused .sharedSink)
    ∧ (∀ off, s.enc.phase = .busy → s.turns = .host (.presentSink off) :: ts → step s = .refused .sharedSink)
    ∧ (∀ syms e, s.dec.phase = .busy → s.turns = .host (.replaceSource syms e) :: ts → step s = .refused .sharedSource)
    ∧ (∀ off, s.enc.phase = .idle → s.dec.phase = .busy → s.turns = .host (.presentSink off) :: ts →
        step s = .refused .sharedSource)

/-- R33, R34, R35, R37, R57, R168, R170, R180: what the host's acts on the ports do. That a symbol is appended to what is on offer
whatever the source and the decoder are doing, that an offset beyond the sink presents End alone and that a withdrawal from
an empty port changes nothing is log 20 (the model's choice); the refusals by name are log 10, the copy of the sink log 11,
the flag for End log 12. Reset is `ResetTouchesTheRegistersOnly`. -/
def Obligations.HostActsOnThePorts : Prop :=
  ∀ (s : State) (ts : List Turn),
    (∀ r, s.turns = .host (.offer r) :: ts → s.port = none → step s = .next { s with port := some r, turns := ts })
    ∧ (∀ r r', s.turns = .host (.offer r) :: ts → s.port = some r' → step s = .refused .portOccupied)
    ∧ (∀ w, s.turns = .host (.offerSymbol w) :: ts →
        step s = .next { s with source := s.source ++ [decodeSymbol w], turns := ts })
    ∧ (∀ off, s.turns = .host (.presentSink off) :: ts → s.enc.phase = .idle → s.dec.phase = .idle →
        step s = .next { s with source := (s.sink.drop off).map Symbol.byte, sourceEnded := true, turns := ts })
    ∧ (∀ b, s.turns = .host (.setSinkReady b) :: ts → step s = .next { s with sinkReady := b, turns := ts })
    ∧ (s.turns = .host .withdraw :: ts →
        (s.port = none → step s = .next { s with turns := ts })
        ∧ (∀ r, s.port = some r → 0x8 ≤ r.toNat / 2 ^ 64 → r.toNat / 2 ^ 64 ≤ 0xB →
          step s = .next { s with port := none, turns := ts })
        ∧ (∀ r i, s.port = some r → decodeRecord r = .ok i → step s = .refused .recordNotHeld))
    ∧ (∀ syms e, s.turns = .host (.replaceSource syms e) :: ts → s.dec.phase = .idle →
        step s = .next { s with source := syms, sourceEnded := e, turns := ts })
    ∧ (∀ bytes, s.turns = .host (.replaceSink bytes) :: ts → s.enc.phase = .idle →
        step s = .next { s with sink := bytes, turns := ts })
end

