-- ==== Sys2Proof/Laws/Decode.lean ====
section
/-! SUPPORT. The fields of a wire byte and of a command record: taking a form apart gives what it was put together from. -/

namespace Sys2Proof

theorem contOf_iff (b : Byte) : contOf b = true ↔ 128 ≤ b.toNat := by
  rw [contOf, BitVec.getLsbD, Nat.testBit_eq_decide_div_mod_eq]
  simp only [decide_eq_true_eq]
  omega

theorem contOf_eq_false_iff (b : Byte) : contOf b = false ↔ b.toNat < 128 := by
  rw [← Bool.not_eq_true, contOf_iff]
  omega

theorem groupOf_toNat (b : Byte) : (groupOf b).toNat = b.toNat % 128 := by
  simp [groupOf, BitVec.extractLsb'_toNat]

theorem wireByte_toNat (c : Bool) (g : Group) : (wireByte c g).toNat = (if c then 128 else 0) + g.toNat := by
  have h := g.isLt
  refine (BitVec.toNat_append (BitVec.ofBool c) g).trans ?_
  rw [← Nat.shiftLeft_add_eq_or_of_lt h]
  cases c <;> simp [Nat.shiftLeft_eq]

@[simp] theorem contOf_wireByte (c : Bool) (g : Group) : contOf (wireByte c g) = c := by
  have h := g.isLt
  cases c
  · rw [contOf_eq_false_iff, wireByte_toNat]; simpa using h
  · rw [contOf_iff, wireByte_toNat]; simp

@[simp] theorem groupOf_wireByte (c : Bool) (g : Group) : groupOf (wireByte c g) = g := by
  have h := g.isLt
  apply BitVec.eq_of_toNat_eq
  rw [groupOf_toNat, wireByte_toNat]
  cases c <;> simp <;> omega

@[simp] theorem wireByte_contOf_groupOf (b : Byte) : wireByte (contOf b) (groupOf b) = b := by
  apply BitVec.eq_of_toNat_eq
  have h := b.isLt
  rw [wireByte_toNat, groupOf_toNat]
  by_cases hc : contOf b = true
  · have := (contOf_iff b).1 hc
    simp [hc]; omega
  · have := (contOf_eq_false_iff b).1 (by simpa using hc)
    simp [hc]; omega

/-- Two bytes of the same class and group are the same byte. -/
theorem byte_ext {a b : Byte} (hc : contOf a = contOf b) (hg : groupOf a = groupOf b) : a = b := by
  rw [← wireByte_contOf_groupOf a, ← wireByte_contOf_groupOf b, hc, hg]

theorem cmdOf_toNat (r : Record) : (cmdOf r).toNat = r.toNat / 2 ^ 64 := by
  have h := r.isLt
  rw [cmdOf, BitVec.extractLsb'_toNat, Nat.shiftRight_eq_div_pow]
  omega

theorem operandOf_toNat (r : Record) : (operandOf r).toNat = r.toNat % 2 ^ 64 := by
  rw [operandOf, BitVec.extractLsb'_toNat]
  simp

theorem recordOf_toNat (c : BitVec 4) (v : Operand) : (recordOf c v).toNat = c.toNat * 2 ^ 64 + v.toNat := by
  rw [recordOf, BitVec.toNat_append, ← Nat.shiftLeft_add_eq_or_of_lt v.isLt, Nat.shiftLeft_eq]

@[simp] theorem cmdOf_recordOf (c : BitVec 4) (v : Operand) : cmdOf (recordOf c v) = c := by
  have h := v.isLt
  apply BitVec.eq_of_toNat_eq
  rw [cmdOf_toNat, recordOf_toNat]
  omega

@[simp] theorem operandOf_recordOf (c : BitVec 4) (v : Operand) : operandOf (recordOf c v) = v := by
  have h := v.isLt
  apply BitVec.eq_of_toNat_eq
  rw [operandOf_toNat, recordOf_toNat]
  omega

@[simp] theorem recordOf_fields (r : Record) : recordOf (cmdOf r) (operandOf r) = r := by
  apply BitVec.eq_of_toNat_eq
  rw [recordOf_toNat, cmdOf_toNat, operandOf_toNat]
  omega

/-- A record decodes to an encode command, a lenient or a strict decode command, or is reserved. -/
theorem decodeRecord_cases (r : Record) :
    (opOf (cmdOf r) = false ∧ strictOf (cmdOf r) = false
      ∧ decodeRecord r = .ok (encInstr (wselOf (cmdOf r)) (operandOf r)))
    ∨ (opOf (cmdOf r) = false ∧ strictOf (cmdOf r) = true ∧ decodeRecord r = .error (.reservedCommand (cmdOf r)))
    ∨ (opOf (cmdOf r) = true ∧ strictOf (cmdOf r) = false ∧ decodeRecord r = .ok (decInstr (wselOf (cmdOf r))))
    ∨ (opOf (cmdOf r) = true ∧ strictOf (cmdOf r) = true ∧ decodeRecord r = .ok (decsInstr (wselOf (cmdOf r)))) := by
  unfold decodeRecord
  cases opOf (cmdOf r) <;> cases strictOf (cmdOf r) <;> simp

@[simp] theorem decodeSymbol_encodeSymbol (sym : Symbol) : decodeSymbol (encodeSymbol sym) = sym := by
  cases sym with
  | eoi => decide
  | byte b =>
    have hb : (encodeSymbol (.byte b)).toNat = b.toNat := by
      have h := b.isLt
      simp only [encodeSymbol, BitVec.toNat_setWidth]
      omega
    have hend : (encodeSymbol (.byte b)).getLsbD 8 = false := by
      have h := b.isLt
      rw [BitVec.getLsbD, hb]
      exact Nat.testBit_lt_two_pow (by simpa using h)
    rw [decodeSymbol, hend]
    simp only [Bool.false_eq_true, if_false, Symbol.byte.injEq]
    apply BitVec.eq_of_toNat_eq
    rw [BitVec.extractLsb'_toNat, hb]
    have h := b.isLt
    simpa using h

end Sys2Proof
end

