-- ==== Sys2Proof/Laws/Operands.lean ====
section
/-! SUPPORT. The operand forms and the tests of a step, as arithmetic on natural numbers (42_laws.md R122). -/

namespace Sys2Proof.Machine

@[simp] theorem width_zero : width 0#2 = 8 := rfl
@[simp] theorem width_one : width 1#2 = 16 := rfl
@[simp] theorem width_two : width 2#2 = 32 := rfl
@[simp] theorem width_three : width 3#2 = 64 := rfl

/-- There are four widths (30_encoding.md R55). -/
theorem width_cases (w : BitVec 2) :
    (w = 0 ∧ width w = 8) ∨ (w = 1 ∧ width w = 16) ∨ (w = 2 ∧ width w = 32) ∨ (w = 3 ∧ width w = 64) := by
  revert w; decide

theorem width_le (w : BitVec 2) : width w ≤ 64 := by revert w; decide

theorem le_width (w : BitVec 2) : 8 ≤ width w := by revert w; decide

theorem maxLen_width_le (w : BitVec 2) : maxLen (width w) ≤ 10 := by revert w; decide

theorem width_le_seven_mul_maxLen (w : Nat) : w ≤ 7 * maxLen w := by unfold maxLen; omega

/-- A byte index is in range when and only when its shift is (41_decoder.md R93 (a)). -/
theorem lt_maxLen_iff (w i : Nat) : i < maxLen w ↔ 7 * i < w := by unfold maxLen; omega

theorem encOperand_toNat (w : BitVec 2) (v : Operand) : (encOperand w v).toNat = v.toNat % 2 ^ width w := by
  have h : v.toNat % 2 ^ width w < 2 ^ 64 := lt_of_le_of_lt (Nat.mod_le _ _) v.isLt
  simp only [encOperand, BitVec.toNat_setWidth]
  exact Nat.mod_eq_of_lt h

theorem encOperand_eq (w : BitVec 2) (v : Operand) : encOperand w v = BitVec.ofNat 64 (v.toNat % 2 ^ width w) := by
  apply BitVec.eq_of_toNat_eq
  have h : v.toNat % 2 ^ width w < 2 ^ 64 := lt_of_le_of_lt (Nat.mod_le _ _) v.isLt
  rw [encOperand_toNat, BitVec.toNat_ofNat, Nat.mod_eq_of_lt h]

theorem encGroup_toNat (x : BitVec 64) : (encGroup x).toNat = x.toNat % 128 := by
  simp [encGroup, BitVec.extractLsb'_toNat]

theorem encRest_toNat (x : BitVec 64) : (encRest x).toNat = x.toNat / 128 := by
  simp [encRest, Nat.shiftRight_eq_div_pow]

theorem moreFollows_iff (x : BitVec 64) : moreFollows x = true ↔ x.toNat / 128 ≠ 0 := by
  rw [moreFollows, decide_eq_true_iff, ← encRest_toNat, ne_eq, ne_eq]
  exact not_congr ⟨fun h => by rw [h]; rfl, fun h => BitVec.eq_of_toNat_eq h⟩

theorem offending_iff (w shift : Nat) (g : Group) :
    offending w shift g = true ↔ w ≤ shift ∨ (w < shift + 7 ∧ g.toNat / 2 ^ (w - shift) ≠ 0) := by
  simp [offending, Nat.shiftRight_eq_div_pow]

/-- A group is not offending when and only when it starts inside the W-bit result and ends inside it (41_decoder.md R93). -/
theorem offending_eq_false_iff (w shift : Nat) (g : Group) :
    offending w shift g = false ↔ shift < w ∧ g.toNat * 2 ^ shift < 2 ^ w := by
  have hg := g.isLt
  rw [← Bool.not_eq_true, offending_iff]
  push Not
  constructor
  · rintro ⟨h1, h2⟩
    refine ⟨h1, ?_⟩
    have hw : 2 ^ w = 2 ^ (w - shift) * 2 ^ shift := by rw [← pow_add]; congr 1; omega
    rw [hw]
    apply Nat.mul_lt_mul_of_pos_right _ (by positivity)
    by_cases h3 : w < shift + 7
    · have := h2 h3
      rw [Nat.div_eq_zero_iff] at this
      rcases this with h | h
      · simp at h
      · exact h
    · exact lt_of_lt_of_le hg (Nat.pow_le_pow_right (by norm_num) (by omega))
  · rintro ⟨h1, h2⟩
    refine ⟨h1, fun _ => ?_⟩
    have hw : 2 ^ w = 2 ^ (w - shift) * 2 ^ shift := by rw [← pow_add]; congr 1; omega
    rw [hw] at h2
    exact Nat.div_eq_of_lt (Nat.lt_of_mul_lt_mul_right h2)

theorem padded_iff (st : Bool) (g : Group) (n : BitVec 4) :
    padded st g n = true ↔ st = true ∧ g = 0 ∧ 1 < n.toNat := by
  simp [padded, and_assoc]

/-- The shifted group as a number; no bit is lost where the sum fits (42_laws.md R122 (d)). -/
theorem shiftedGroup_eq (g : Group) (n : Nat) : g.setWidth 64 <<< n = BitVec.ofNat 64 (g.toNat * 2 ^ n) := by
  apply BitVec.eq_of_toNat_eq
  have h := g.isLt
  rw [BitVec.toNat_shiftLeft, BitVec.toNat_setWidth, BitVec.toNat_ofNat, Nat.shiftLeft_eq,
    Nat.mod_eq_of_lt (lt_trans h (by norm_num : (2 : Nat) ^ 7 < 2 ^ 64))]

theorem accumulate_eq (result : BitVec 64) (shift : BitVec 7) (g : Group) :
    accumulate result shift g = result ||| BitVec.ofNat 64 (g.toNat * 2 ^ shift.toNat) := by
  rw [accumulate, shiftedGroup_eq]

/-- OR with a group above the bits of the accumulator is addition (42_laws.md R122 (e)). -/
theorem or_shifted_eq_add {acc sh : Nat} (h : acc < 2 ^ sh) (g : Nat) : acc ||| (g * 2 ^ sh) = acc + g * 2 ^ sh := by
  rw [Nat.lor_comm, Nat.mul_comm, ← Nat.two_pow_add_eq_or_of_lt h, Nat.add_comm]

end Sys2Proof.Machine
end

