-- ==== Sys2Proof/Laws/Functions.lean ====
section
/-! SUPPORT. The pure functions of 42_laws.md unfolded once: `enc` and `go` by their own equations, the value of a byte sequence by
its first byte, and well-formed encodings by theirs. -/

namespace Sys2Proof.Machine

/-! ## The encoding function (R120) -/

theorem encFuel_eq_encBytes (fuel : Nat) : ∀ x, x ≤ fuel → encFuel fuel x = encBytes x := by
  induction fuel using Nat.strong_induction_on with
  | _ fuel ih =>
    intro x hx
    rcases Nat.eq_zero_or_pos x with rfl | hpos
    · unfold encBytes; cases fuel <;> simp [encFuel]
    · obtain ⟨f, rfl⟩ : ∃ f, fuel = f + 1 := ⟨fuel - 1, by omega⟩
      obtain ⟨k, rfl⟩ : ∃ k, x = k + 1 := ⟨x - 1, by omega⟩
      unfold encBytes
      rw [encFuel, encFuel]
      by_cases hz : (k + 1) >>> 7 = 0
      · simp [hz]
      · have hle : (k + 1) >>> 7 ≤ k := by rw [Nat.shiftRight_eq_div_pow]; omega
        rw [if_neg hz, if_neg hz, ih f (by omega) _ (by omega)]
        by_cases hk : k < f + 1
        · rw [ih k hk _ hle]
        · rw [show k = f by omega, ih f (by omega) _ (by omega)]

/-- `enc(x)` of a value of one group (R120). -/
theorem encBytes_of_lt {x : Nat} (h : x < 128) : encBytes x = [wireByte false (BitVec.ofNat 7 x)] := by
  have hz : x >>> 7 = 0 := by rw [Nat.shiftRight_eq_div_pow]; omega
  unfold encBytes
  cases x <;> simp [encFuel, hz]

/-- `enc(x)` of a value of more groups (R120). -/
theorem encBytes_of_ge {x : Nat} (h : 128 ≤ x) :
    encBytes x = wireByte true (BitVec.ofNat 7 x) :: encBytes (x / 128) := by
  obtain ⟨k, rfl⟩ : ∃ k, x = k + 1 := ⟨x - 1, by omega⟩
  have hd : (k + 1) >>> 7 = (k + 1) / 128 := by rw [Nat.shiftRight_eq_div_pow]
  have hz : ¬(k + 1) >>> 7 = 0 := by rw [hd]; omega
  conv_lhs => unfold encBytes
  rw [encFuel, if_neg hz, hd, encFuel_eq_encBytes k _ (by omega)]

/-- Induction on the groups of a value. -/
theorem group_induction {P : Nat → Prop} (base : ∀ x, x < 128 → P x) (more : ∀ x, 128 ≤ x → P (x / 128) → P x)
    (x : Nat) : P x := by
  induction x using Nat.strong_induction_on with
  | _ x ih =>
    by_cases h : x < 128
    · exact base x h
    · exact more x (by omega) (ih _ (by omega))

theorem encBytes_ne_nil (x : Nat) : encBytes x ≠ [] := by
  by_cases h : x < 128
  · simp [encBytes_of_lt h]
  · simp [encBytes_of_ge (show 128 ≤ x by omega)]

theorem encBytes_length_pos (x : Nat) : 1 ≤ (encBytes x).length :=
  List.length_pos_iff.2 (encBytes_ne_nil x)

/-- `enc` does not depend on W (R120). -/
theorem encodeW_of_lt {w v : Nat} (h : v < 2 ^ w) : encodeW w v = encBytes v := by
  rw [encodeW, Nat.mod_eq_of_lt h]

/-! ## The value of a byte sequence (30_encoding.md R53) -/

theorem valueFrom_eq (i : Nat) (bytes : List Byte) : valueFrom i bytes = 2 ^ (7 * i) * encodingValue bytes := by
  induction bytes generalizing i with
  | nil => simp [valueFrom, encodingValue]
  | cons b rest ih =>
    rw [encodingValue, valueFrom, valueFrom, ih (i + 1), ih (0 + 1), Nat.shiftLeft_eq, Nat.shiftLeft_eq]
    ring

@[simp] theorem encodingValue_nil : encodingValue [] = 0 := rfl

@[simp] theorem encodingValue_cons (b : Byte) (rest : List Byte) :
    encodingValue (b :: rest) = (groupOf b).toNat + 128 * encodingValue rest := by
  rw [encodingValue, valueFrom, valueFrom_eq]
  simp

theorem encodingValue_append (a c : List Byte) :
    encodingValue (a ++ c) = encodingValue a + 2 ^ (7 * a.length) * encodingValue c := by
  induction a with
  | nil => simp
  | cons b rest ih =>
    simp only [List.cons_append, encodingValue_cons, ih, List.length_cons, mul_add, pow_add]
    ring

theorem encodingValue_lt (bytes : List Byte) : encodingValue bytes < 2 ^ (7 * bytes.length) := by
  induction bytes with
  | nil => simp
  | cons b rest ih =>
    have hb := (groupOf b).isLt
    rw [encodingValue_cons, List.length_cons, mul_add, pow_add]
    omega

/-! ## Well-formed encodings (30_encoding.md R52) -/

@[simp] theorem isEncoding_nil : isEncoding [] = false := rfl

@[simp] theorem isEncoding_singleton (b : Byte) : isEncoding [b] = !contOf b := rfl

theorem isEncoding_cons {b : Byte} {rest : List Byte} (h : rest ≠ []) :
    isEncoding (b :: rest) = (contOf b && isEncoding rest) := by
  cases rest with
  | nil => exact absurd rfl h
  | cons c rest => rfl

/-- A well-formed encoding is one `LASTB` byte, or a `CONTB` byte and a well-formed encoding. -/
theorem isEncoding_cons_iff (b : Byte) (rest : List Byte) :
    isEncoding (b :: rest) = true ↔ (contOf b = false ∧ rest = []) ∨ (contOf b = true ∧ isEncoding rest = true) := by
  cases rest with
  | nil => simp
  | cons c rest => simp [isEncoding_cons]

/-! ## The decoding function (R121) -/

@[simp] theorem decodeGo_nil (w : Nat) (st : Bool) (i acc : Nat) :
    decodeGo w st [] i acc = .error .unexpectedEndOfInput i := rfl

theorem decodeGo_offending {w i : Nat} {b : Byte} (h : offending w (7 * i) (groupOf b) = true) (st : Bool)
    (rest : List Byte) (acc : Nat) : decodeGo w st (b :: rest) i acc = .error .overflow (i + 1) := by
  rw [offending_iff] at h
  rw [decodeGo]
  simp only [Nat.shiftRight_eq_div_pow]
  rw [if_pos h]

theorem decodeGo_more {w i : Nat} {b : Byte} (h : offending w (7 * i) (groupOf b) = false) (hc : contOf b = true)
    (st : Bool) (rest : List Byte) (acc : Nat) :
    decodeGo w st (b :: rest) i acc = decodeGo w st rest (i + 1) (acc ||| ((groupOf b).toNat * 2 ^ (7 * i))) := by
  rw [← Bool.not_eq_true, offending_iff] at h
  rw [decodeGo]
  simp only [Nat.shiftRight_eq_div_pow, Nat.shiftLeft_eq]
  rw [if_neg h, if_pos hc]

theorem decodeGo_last {w i : Nat} {b : Byte} (h : offending w (7 * i) (groupOf b) = false) (hc : contOf b = false)
    (st : Bool) (rest : List Byte) (acc : Nat) :
    decodeGo w st (b :: rest) i acc =
      if st = true ∧ (groupOf b).toNat = 0 ∧ 1 ≤ i then .error .nonCanonical (i + 1)
      else .ok (acc ||| ((groupOf b).toNat * 2 ^ (7 * i))) (i + 1) := by
  rw [← Bool.not_eq_true, offending_iff] at h
  rw [decodeGo]
  simp only [Nat.shiftRight_eq_div_pow, Nat.shiftLeft_eq]
  rw [if_neg h, if_neg (by simp [hc])]

end Sys2Proof.Machine
end

