-- ==== Sys2Proof/Laws/PerInstr.lean ====
section
/-! SUPPORT. The opcode table, row by row: the word an instruction is encoded as matches its own row's mask and match. -/

namespace Sys2Proof.Laws.Table

/-- A row of opcode_table.json: how many bits it gives, its mask and its match. -/
structure Row where
  bits : Nat
  mask : Nat
  value : Nat
  deriving DecidableEq, Repr

/-- The row of an instruction, as opcode_table.json has it. -/
def row : Instr → Row
  | .enc8 _ => ⟨4, 0xF, 0x0⟩
  | .enc16 _ => ⟨4, 0xF, 0x1⟩
  | .enc32 _ => ⟨4, 0xF, 0x2⟩
  | .enc64 _ => ⟨4, 0xF, 0x3⟩
  | .dec8 => ⟨4, 0xF, 0x4⟩
  | .dec16 => ⟨4, 0xF, 0x5⟩
  | .dec32 => ⟨4, 0xF, 0x6⟩
  | .dec64 => ⟨4, 0xF, 0x7⟩
  | .decs8 => ⟨4, 0xF, 0xC⟩
  | .decs16 => ⟨4, 0xF, 0xD⟩
  | .decs32 => ⟨4, 0xF, 0xE⟩
  | .decs64 => ⟨4, 0xF, 0xF⟩
  | .contb _ => ⟨8, 0x80, 0x80⟩
  | .lastb _ => ⟨8, 0x80, 0x00⟩

/-- The bits of a code that the opcode table numbers: `CMD` of a record, all eight of a byte. -/
def word : Code → Nat
  | .record r => (cmdOf r).toNat
  | .byte b => b.toNat

/-- The instruction's code fits its row's bits and matches its row. -/
def Statement (i : Instr) : Prop :=
  word (encode i) < 2 ^ (row i).bits ∧ word (encode i) &&& (row i).mask = (row i).value

theorem enc8 (v : Operand) : Statement (.enc8 v) := by simp [Statement, word, encode, row]

theorem enc16 (v : Operand) : Statement (.enc16 v) := by simp [Statement, word, encode, row]

theorem enc32 (v : Operand) : Statement (.enc32 v) := by simp [Statement, word, encode, row]

theorem enc64 (v : Operand) : Statement (.enc64 v) := by simp [Statement, word, encode, row]

theorem dec8 : Statement .dec8 := by simp [Statement, word, encode, row]

theorem dec16 : Statement .dec16 := by simp [Statement, word, encode, row]

theorem dec32 : Statement .dec32 := by simp [Statement, word, encode, row]

theorem dec64 : Statement .dec64 := by simp [Statement, word, encode, row]

theorem decs8 : Statement .decs8 := by simp [Statement, word, encode, row]

theorem decs16 : Statement .decs16 := by simp [Statement, word, encode, row]

theorem decs32 : Statement .decs32 := by simp [Statement, word, encode, row]

theorem decs64 : Statement .decs64 := by simp [Statement, word, encode, row]

theorem contb (g : Group) : Statement (.contb g) := by
  change (wireByte true g).toNat < 256 ∧ (wireByte true g).toNat &&& 128 = 128
  revert g; decide

theorem lastb (g : Group) : Statement (.lastb g) := by
  change (wireByte false g).toNat < 256 ∧ (wireByte false g).toNat &&& 128 = 0
  revert g; decide

end Sys2Proof.Laws.Table
end

