-- ==== Sys2Proof/Laws/State.lean ====
section
/-! SUPPORT. What each named operation leaves in each field of the state: one lemma per field, so that no proof unfolds a record
update. -/

namespace Sys2Proof.Machine

variable (s : State)

/-- The response `takeLast` gives: NonCanonical or OK (41_decoder.md R91). -/
def lastResponse (g : Group) (s : State) : DecResponse :=
  if padded s.dec.strict g (s.dec.cnt + 1) then .error .nonCanonical (s.dec.cnt + 1)
  else .ok (accumulate s.dec.result s.dec.shift g) (s.dec.cnt + 1)

/-! ## The registers of a unit that responds -/

@[simp] theorem respondDec_dec_phase (r : DecResponse) : (respondDec r s).dec.phase = .idle := rfl
@[simp] theorem respondDec_dec_wsel (r : DecResponse) : (respondDec r s).dec.wsel = s.dec.wsel := rfl
@[simp] theorem respondDec_dec_strict (r : DecResponse) : (respondDec r s).dec.strict = s.dec.strict := rfl
@[simp] theorem takeEnd_dec_phase : (takeEnd s).dec.phase = .idle := rfl
@[simp] theorem takeEnd_dec_wsel : (takeEnd s).dec.wsel = s.dec.wsel := rfl
@[simp] theorem takeEnd_dec_strict : (takeEnd s).dec.strict = s.dec.strict := rfl
@[simp] theorem takeOffending_dec_phase : (takeOffending s).dec.phase = .idle := rfl
@[simp] theorem takeOffending_dec_wsel : (takeOffending s).dec.wsel = s.dec.wsel := rfl
@[simp] theorem takeOffending_dec_strict : (takeOffending s).dec.strict = s.dec.strict := rfl
@[simp] theorem takeLast_dec_phase (g : Group) : (takeLast g s).dec.phase = .idle := by
  unfold takeLast; split <;> rfl
@[simp] theorem takeLast_dec_wsel (g : Group) : (takeLast g s).dec.wsel = s.dec.wsel := by
  unfold takeLast; split <;> rfl
@[simp] theorem takeLast_dec_strict (g : Group) : (takeLast g s).dec.strict = s.dec.strict := by
  unfold takeLast; split <;> rfl

/-! ## Command accept in each phase -/

theorem acceptEnc_idle {s : State} (h : s.enc.phase = .idle) (w : BitVec 2) (v : Operand) :
    acceptEnc w v s =
      { s with enc := { phase := .busy, wsel := w, x := encOperand w v, cnt := 0 }, port := none } := by
  simp [acceptEnc, h]

theorem acceptEnc_busy {s : State} (h : s.enc.phase = .busy) (w : BitVec 2) (v : Operand) : acceptEnc w v s = s := by
  simp [acceptEnc, h]

theorem acceptDec_idle {s : State} (h : s.dec.phase = .idle) (w : BitVec 2) (st : Bool) :
    acceptDec w st s = { s with dec := decStart w st, port := none } := by
  simp [acceptDec, h]

theorem acceptDec_busy {s : State} (h : s.dec.phase = .busy) (w : BitVec 2) (st : Bool) : acceptDec w st s = s := by
  simp [acceptDec, h]

/-! ## sinkAppend -/

@[simp] theorem sinkAppend_enc (b : Byte) : (sinkAppend b s).enc = s.enc := rfl
@[simp] theorem sinkAppend_dec (b : Byte) : (sinkAppend b s).dec = s.dec := rfl
@[simp] theorem sinkAppend_port (b : Byte) : (sinkAppend b s).port = s.port := rfl
@[simp] theorem sinkAppend_sink (b : Byte) : (sinkAppend b s).sink = s.sink ++ [b] := rfl
@[simp] theorem sinkAppend_sinkReady (b : Byte) : (sinkAppend b s).sinkReady = s.sinkReady := rfl
@[simp] theorem sinkAppend_source (b : Byte) : (sinkAppend b s).source = s.source := rfl
@[simp] theorem sinkAppend_sourceEnded (b : Byte) : (sinkAppend b s).sourceEnded = s.sourceEnded := rfl
@[simp] theorem sinkAppend_encOut (b : Byte) : (sinkAppend b s).encOut = s.encOut := rfl
@[simp] theorem sinkAppend_decOut (b : Byte) : (sinkAppend b s).decOut = s.decOut := rfl
@[simp] theorem sinkAppend_turns (b : Byte) : (sinkAppend b s).turns = s.turns := rfl
@[simp] theorem sinkAppend_draws (b : Byte) : (sinkAppend b s).draws = s.draws := rfl

/-! ## srcDrop -/

@[simp] theorem srcDrop_enc : (srcDrop s).enc = s.enc := rfl
@[simp] theorem srcDrop_dec : (srcDrop s).dec = s.dec := rfl
@[simp] theorem srcDrop_port : (srcDrop s).port = s.port := rfl
@[simp] theorem srcDrop_sink : (srcDrop s).sink = s.sink := rfl
@[simp] theorem srcDrop_sinkReady : (srcDrop s).sinkReady = s.sinkReady := rfl
@[simp] theorem srcDrop_source : (srcDrop s).source = s.source.tail := rfl
@[simp] theorem srcDrop_sourceEnded : (srcDrop s).sourceEnded = s.sourceEnded := rfl
@[simp] theorem srcDrop_encOut : (srcDrop s).encOut = s.encOut := rfl
@[simp] theorem srcDrop_decOut : (srcDrop s).decOut = s.decOut := rfl
@[simp] theorem srcDrop_turns : (srcDrop s).turns = s.turns := rfl
@[simp] theorem srcDrop_draws : (srcDrop s).draws = s.draws := rfl

/-! ## dropTurn -/

@[simp] theorem dropTurn_enc : (dropTurn s).enc = s.enc := rfl
@[simp] theorem dropTurn_dec : (dropTurn s).dec = s.dec := rfl
@[simp] theorem dropTurn_port : (dropTurn s).port = s.port := rfl
@[simp] theorem dropTurn_sink : (dropTurn s).sink = s.sink := rfl
@[simp] theorem dropTurn_sinkReady : (dropTurn s).sinkReady = s.sinkReady := rfl
@[simp] theorem dropTurn_source : (dropTurn s).source = s.source := rfl
@[simp] theorem dropTurn_sourceEnded : (dropTurn s).sourceEnded = s.sourceEnded := rfl
@[simp] theorem dropTurn_encOut : (dropTurn s).encOut = s.encOut := rfl
@[simp] theorem dropTurn_decOut : (dropTurn s).decOut = s.decOut := rfl
@[simp] theorem dropTurn_turns : (dropTurn s).turns = s.turns.tail := rfl
@[simp] theorem dropTurn_draws : (dropTurn s).draws = s.draws := rfl

/-! ## respondEnc -/

@[simp] theorem respondEnc_enc (n : BitVec 4) : (respondEnc n s).enc = { s.enc with phase := .idle } := rfl
@[simp] theorem respondEnc_dec (n : BitVec 4) : (respondEnc n s).dec = s.dec := rfl
@[simp] theorem respondEnc_port (n : BitVec 4) : (respondEnc n s).port = s.port := rfl
@[simp] theorem respondEnc_sink (n : BitVec 4) : (respondEnc n s).sink = s.sink := rfl
@[simp] theorem respondEnc_sinkReady (n : BitVec 4) : (respondEnc n s).sinkReady = s.sinkReady := rfl
@[simp] theorem respondEnc_source (n : BitVec 4) : (respondEnc n s).source = s.source := rfl
@[simp] theorem respondEnc_sourceEnded (n : BitVec 4) : (respondEnc n s).sourceEnded = s.sourceEnded := rfl
@[simp] theorem respondEnc_encOut (n : BitVec 4) : (respondEnc n s).encOut = s.encOut ++ [⟨n⟩] := rfl
@[simp] theorem respondEnc_decOut (n : BitVec 4) : (respondEnc n s).decOut = s.decOut := rfl
@[simp] theorem respondEnc_turns (n : BitVec 4) : (respondEnc n s).turns = s.turns := rfl
@[simp] theorem respondEnc_draws (n : BitVec 4) : (respondEnc n s).draws = s.draws := rfl

/-! ## respondDec -/

@[simp] theorem respondDec_enc (r : DecResponse) : (respondDec r s).enc = s.enc := rfl
@[simp] theorem respondDec_port (r : DecResponse) : (respondDec r s).port = s.port := rfl
@[simp] theorem respondDec_sink (r : DecResponse) : (respondDec r s).sink = s.sink := rfl
@[simp] theorem respondDec_sinkReady (r : DecResponse) : (respondDec r s).sinkReady = s.sinkReady := rfl
@[simp] theorem respondDec_source (r : DecResponse) : (respondDec r s).source = s.source := rfl
@[simp] theorem respondDec_sourceEnded (r : DecResponse) : (respondDec r s).sourceEnded = s.sourceEnded := rfl
@[simp] theorem respondDec_encOut (r : DecResponse) : (respondDec r s).encOut = s.encOut := rfl
@[simp] theorem respondDec_decOut (r : DecResponse) : (respondDec r s).decOut = s.decOut ++ [r] := rfl
@[simp] theorem respondDec_turns (r : DecResponse) : (respondDec r s).turns = s.turns := rfl
@[simp] theorem respondDec_draws (r : DecResponse) : (respondDec r s).draws = s.draws + 1 := rfl

/-! ## emitMore -/

@[simp] theorem emitMore_enc : (emitMore s).enc = { s.enc with x := encRest s.enc.x, cnt := s.enc.cnt + 1 } := rfl
@[simp] theorem emitMore_dec : (emitMore s).dec = s.dec := rfl
@[simp] theorem emitMore_port : (emitMore s).port = s.port := rfl
@[simp] theorem emitMore_sink : (emitMore s).sink = s.sink ++ [wireByte true (encGroup s.enc.x)] := rfl
@[simp] theorem emitMore_sinkReady : (emitMore s).sinkReady = s.sinkReady := rfl
@[simp] theorem emitMore_source : (emitMore s).source = s.source := rfl
@[simp] theorem emitMore_sourceEnded : (emitMore s).sourceEnded = s.sourceEnded := rfl
@[simp] theorem emitMore_encOut : (emitMore s).encOut = s.encOut := rfl
@[simp] theorem emitMore_decOut : (emitMore s).decOut = s.decOut := rfl
@[simp] theorem emitMore_turns : (emitMore s).turns = s.turns := rfl
@[simp] theorem emitMore_draws : (emitMore s).draws = s.draws := rfl

/-! ## emitLast -/

@[simp] theorem emitLast_enc : (emitLast s).enc = { s.enc with phase := .idle, x := 0 } := rfl
@[simp] theorem emitLast_dec : (emitLast s).dec = s.dec := rfl
@[simp] theorem emitLast_port : (emitLast s).port = s.port := rfl
@[simp] theorem emitLast_sink : (emitLast s).sink = s.sink ++ [wireByte false (encGroup s.enc.x)] := rfl
@[simp] theorem emitLast_sinkReady : (emitLast s).sinkReady = s.sinkReady := rfl
@[simp] theorem emitLast_source : (emitLast s).source = s.source := rfl
@[simp] theorem emitLast_sourceEnded : (emitLast s).sourceEnded = s.sourceEnded := rfl
@[simp] theorem emitLast_encOut : (emitLast s).encOut = s.encOut ++ [⟨s.enc.cnt + 1⟩] := rfl
@[simp] theorem emitLast_decOut : (emitLast s).decOut = s.decOut := rfl
@[simp] theorem emitLast_turns : (emitLast s).turns = s.turns := rfl
@[simp] theorem emitLast_draws : (emitLast s).draws = s.draws := rfl

/-! ## takeEnd -/

@[simp] theorem takeEnd_enc : (takeEnd s).enc = s.enc := rfl
@[simp] theorem takeEnd_port : (takeEnd s).port = s.port := rfl
@[simp] theorem takeEnd_sink : (takeEnd s).sink = s.sink := rfl
@[simp] theorem takeEnd_sinkReady : (takeEnd s).sinkReady = s.sinkReady := rfl
@[simp] theorem takeEnd_source : (takeEnd s).source = s.source.tail := rfl
@[simp] theorem takeEnd_sourceEnded : (takeEnd s).sourceEnded = s.sourceEnded := rfl
@[simp] theorem takeEnd_encOut : (takeEnd s).encOut = s.encOut := rfl
@[simp] theorem takeEnd_decOut : (takeEnd s).decOut = s.decOut ++ [.error .unexpectedEndOfInput s.dec.cnt] := rfl
@[simp] theorem takeEnd_turns : (takeEnd s).turns = s.turns := rfl
@[simp] theorem takeEnd_draws : (takeEnd s).draws = s.draws + 1 := rfl

/-! ## takeOffending -/

@[simp] theorem takeOffending_enc : (takeOffending s).enc = s.enc := rfl
@[simp] theorem takeOffending_port : (takeOffending s).port = s.port := rfl
@[simp] theorem takeOffending_sink : (takeOffending s).sink = s.sink := rfl
@[simp] theorem takeOffending_sinkReady : (takeOffending s).sinkReady = s.sinkReady := rfl
@[simp] theorem takeOffending_source : (takeOffending s).source = s.source.tail := rfl
@[simp] theorem takeOffending_sourceEnded : (takeOffending s).sourceEnded = s.sourceEnded := rfl
@[simp] theorem takeOffending_encOut : (takeOffending s).encOut = s.encOut := rfl
@[simp] theorem takeOffending_decOut : (takeOffending s).decOut = s.decOut ++ [.error .overflow (s.dec.cnt + 1)] := rfl
@[simp] theorem takeOffending_turns : (takeOffending s).turns = s.turns := rfl
@[simp] theorem takeOffending_draws : (takeOffending s).draws = s.draws + 1 := rfl

/-! ## takeMore -/

@[simp] theorem takeMore_enc (g : Group) : (takeMore g s).enc = s.enc := rfl
@[simp] theorem takeMore_dec (g : Group) : (takeMore g s).dec = { s.dec with result := accumulate s.dec.result s.dec.shift g, shift := s.dec.shift + 7, cnt := s.dec.cnt + 1 } := rfl
@[simp] theorem takeMore_port (g : Group) : (takeMore g s).port = s.port := rfl
@[simp] theorem takeMore_sink (g : Group) : (takeMore g s).sink = s.sink := rfl
@[simp] theorem takeMore_sinkReady (g : Group) : (takeMore g s).sinkReady = s.sinkReady := rfl
@[simp] theorem takeMore_source (g : Group) : (takeMore g s).source = s.source.tail := rfl
@[simp] theorem takeMore_sourceEnded (g : Group) : (takeMore g s).sourceEnded = s.sourceEnded := rfl
@[simp] theorem takeMore_encOut (g : Group) : (takeMore g s).encOut = s.encOut := rfl
@[simp] theorem takeMore_decOut (g : Group) : (takeMore g s).decOut = s.decOut := rfl
@[simp] theorem takeMore_turns (g : Group) : (takeMore g s).turns = s.turns := rfl
@[simp] theorem takeMore_draws (g : Group) : (takeMore g s).draws = s.draws := rfl

/-! ## takeLast -/

@[simp] theorem takeLast_enc (g : Group) : (takeLast g s).enc = s.enc := by
  unfold takeLast; split <;> rfl
@[simp] theorem takeLast_port (g : Group) : (takeLast g s).port = s.port := by
  unfold takeLast; split <;> rfl
@[simp] theorem takeLast_sink (g : Group) : (takeLast g s).sink = s.sink := by
  unfold takeLast; split <;> rfl
@[simp] theorem takeLast_sinkReady (g : Group) : (takeLast g s).sinkReady = s.sinkReady := by
  unfold takeLast; split <;> rfl
@[simp] theorem takeLast_source (g : Group) : (takeLast g s).source = s.source.tail := by
  unfold takeLast; split <;> rfl
@[simp] theorem takeLast_sourceEnded (g : Group) : (takeLast g s).sourceEnded = s.sourceEnded := by
  unfold takeLast; split <;> rfl
@[simp] theorem takeLast_encOut (g : Group) : (takeLast g s).encOut = s.encOut := by
  unfold takeLast; split <;> rfl
@[simp] theorem takeLast_decOut (g : Group) : (takeLast g s).decOut = s.decOut ++ [lastResponse g s] := by
  unfold takeLast lastResponse; split <;> rfl
@[simp] theorem takeLast_turns (g : Group) : (takeLast g s).turns = s.turns := by
  unfold takeLast; split <;> rfl
@[simp] theorem takeLast_draws (g : Group) : (takeLast g s).draws = s.draws + 1 := by
  unfold takeLast; split <;> rfl

/-! ## resetBlock -/

@[simp] theorem resetBlock_enc : (resetBlock s).enc = EncRegs.reset := rfl
@[simp] theorem resetBlock_dec : (resetBlock s).dec = DecRegs.reset := rfl
@[simp] theorem resetBlock_port : (resetBlock s).port = s.port := rfl
@[simp] theorem resetBlock_sink : (resetBlock s).sink = s.sink := rfl
@[simp] theorem resetBlock_sinkReady : (resetBlock s).sinkReady = s.sinkReady := rfl
@[simp] theorem resetBlock_source : (resetBlock s).source = s.source := rfl
@[simp] theorem resetBlock_sourceEnded : (resetBlock s).sourceEnded = s.sourceEnded := rfl
@[simp] theorem resetBlock_encOut : (resetBlock s).encOut = s.encOut := rfl
@[simp] theorem resetBlock_decOut : (resetBlock s).decOut = s.decOut := rfl
@[simp] theorem resetBlock_turns : (resetBlock s).turns = s.turns := rfl
@[simp] theorem resetBlock_draws : (resetBlock s).draws = s.draws := rfl

/-! ## acceptEnc -/

@[simp] theorem acceptEnc_dec (w : BitVec 2) (v : Operand) : (acceptEnc w v s).dec = s.dec := by
  unfold acceptEnc; split <;> rfl
@[simp] theorem acceptEnc_sink (w : BitVec 2) (v : Operand) : (acceptEnc w v s).sink = s.sink := by
  unfold acceptEnc; split <;> rfl
@[simp] theorem acceptEnc_sinkReady (w : BitVec 2) (v : Operand) : (acceptEnc w v s).sinkReady = s.sinkReady := by
  unfold acceptEnc; split <;> rfl
@[simp] theorem acceptEnc_source (w : BitVec 2) (v : Operand) : (acceptEnc w v s).source = s.source := by
  unfold acceptEnc; split <;> rfl
@[simp] theorem acceptEnc_sourceEnded (w : BitVec 2) (v : Operand) : (acceptEnc w v s).sourceEnded = s.sourceEnded := by
  unfold acceptEnc; split <;> rfl
@[simp] theorem acceptEnc_encOut (w : BitVec 2) (v : Operand) : (acceptEnc w v s).encOut = s.encOut := by
  unfold acceptEnc; split <;> rfl
@[simp] theorem acceptEnc_decOut (w : BitVec 2) (v : Operand) : (acceptEnc w v s).decOut = s.decOut := by
  unfold acceptEnc; split <;> rfl
@[simp] theorem acceptEnc_turns (w : BitVec 2) (v : Operand) : (acceptEnc w v s).turns = s.turns := by
  unfold acceptEnc; split <;> rfl
@[simp] theorem acceptEnc_draws (w : BitVec 2) (v : Operand) : (acceptEnc w v s).draws = s.draws := by
  unfold acceptEnc; split <;> rfl

/-! ## acceptDec -/

@[simp] theorem acceptDec_enc (w : BitVec 2) (st : Bool) : (acceptDec w st s).enc = s.enc := by
  unfold acceptDec; split <;> rfl
@[simp] theorem acceptDec_sink (w : BitVec 2) (st : Bool) : (acceptDec w st s).sink = s.sink := by
  unfold acceptDec; split <;> rfl
@[simp] theorem acceptDec_sinkReady (w : BitVec 2) (st : Bool) : (acceptDec w st s).sinkReady = s.sinkReady := by
  unfold acceptDec; split <;> rfl
@[simp] theorem acceptDec_source (w : BitVec 2) (st : Bool) : (acceptDec w st s).source = s.source := by
  unfold acceptDec; split <;> rfl
@[simp] theorem acceptDec_sourceEnded (w : BitVec 2) (st : Bool) : (acceptDec w st s).sourceEnded = s.sourceEnded := by
  unfold acceptDec; split <;> rfl
@[simp] theorem acceptDec_encOut (w : BitVec 2) (st : Bool) : (acceptDec w st s).encOut = s.encOut := by
  unfold acceptDec; split <;> rfl
@[simp] theorem acceptDec_decOut (w : BitVec 2) (st : Bool) : (acceptDec w st s).decOut = s.decOut := by
  unfold acceptDec; split <;> rfl
@[simp] theorem acceptDec_turns (w : BitVec 2) (st : Bool) : (acceptDec w st s).turns = s.turns := by
  unfold acceptDec; split <;> rfl
@[simp] theorem acceptDec_draws (w : BitVec 2) (st : Bool) : (acceptDec w st s).draws = s.draws := by
  unfold acceptDec; split <;> rfl

end Sys2Proof.Machine
end

