-- ==== Sys2Proof/Laws/Steps.lean ====
section
/-! SUPPORT. Everything each shared operation, each meaning and each turn can do, said once. -/

namespace Sys2Proof.Machine

/-! ## A step is the next turn -/

theorem step_of_no_turn {s : State} (h : s.turns = []) : step s = .next s := by simp [step, h]

theorem step_of_turn {s : State} {t : Turn} {ts : List Turn} (h : s.turns = t :: ts) :
    step s = takeTurn t { s with turns := ts } := by
  simp [step, dropTurn, h]

/-- A step takes the first turn of the schedule, or there is none and nothing happens. -/
theorem step_cases (s : State) :
    (s.turns = [] ∧ step s = .next s)
    ∨ ∃ t ts, s.turns = t :: ts ∧ step s = takeTurn t { s with turns := ts } := by
  cases h : s.turns with
  | nil => exact .inl ⟨rfl, step_of_no_turn h⟩
  | cons t ts => exact .inr ⟨t, ts, rfl, step_of_turn h⟩

theorem runSteps_zero (s : State) : runSteps 0 s = .next s := rfl

theorem runSteps_succ (n : Nat) (s : State) : runSteps (n + 1) s = andThen (step s) (runSteps n) := rfl

/-- `runSteps` is the host's run of the machine. -/
theorem runSteps_eq_run (n : Nat) : ∀ s : State, runSteps n s = Host.Core.run core n s := by
  induction n with
  | zero => intro s; rfl
  | succ n ih =>
    intro s
    refine Eq.trans ?_ (Host.Core.run.eq_2 core s n).symm
    change andThen (core.step s) (runSteps n) = _
    cases core.step s with
    | next t => exact ih t
    | fault r => rfl
    | refused r => rfl

theorem runSteps_succ_of_step {n : Nat} {s t : State} (h : step s = .next t) : runSteps (n + 1) s = runSteps n t := by
  rw [runSteps_succ, h]; rfl

@[simp] theorem takeTurn_accept (s : State) : takeTurn .accept s = portTurn s := rfl
@[simp] theorem takeTurn_enc (s : State) : takeTurn .enc s = .next (encStep s) := rfl
@[simp] theorem takeTurn_dec (s : State) : takeTurn .dec s = decTurn s := rfl
@[simp] theorem takeTurn_host (a : HostAct) (s : State) : takeTurn (.host a) s = hostAct a s := rfl

/-! ## The encoder's turn -/

theorem encStep_idle {s : State} (h : s.enc.phase = .idle) : encStep s = s := by simp [encStep, h]

theorem encStep_not_ready {s : State} (h : s.sinkReady = false) : encStep s = s := by
  unfold encStep; cases s.enc.phase <;> simp [h]

theorem encStep_more {s : State} (h : s.enc.phase = .busy) (hr : s.sinkReady = true)
    (hx : s.enc.x.toNat / 128 ≠ 0) : encStep s = emitMore s := by
  have hm := (moreFollows_iff s.enc.x).2 hx
  simp [encStep, h, hr, hm]

theorem encStep_last {s : State} (h : s.enc.phase = .busy) (hr : s.sinkReady = true)
    (hx : s.enc.x.toNat / 128 = 0) : encStep s = emitLast s := by
  have hm : moreFollows s.enc.x = false := by
    rw [← Bool.not_eq_true, moreFollows_iff]; simpa using hx
  simp [encStep, h, hr, hm]

/-- The encoder waits, emits a byte and goes on, or emits the last byte and responds. -/
theorem encStep_cases (s : State) :
    ((s.enc.phase = .idle ∨ s.sinkReady = false) ∧ encStep s = s)
    ∨ (s.enc.phase = .busy ∧ s.sinkReady = true ∧ s.enc.x.toNat / 128 ≠ 0 ∧ encStep s = emitMore s)
    ∨ (s.enc.phase = .busy ∧ s.sinkReady = true ∧ s.enc.x.toNat / 128 = 0 ∧ encStep s = emitLast s) := by
  cases hp : s.enc.phase with
  | idle => exact .inl ⟨.inl rfl, encStep_idle hp⟩
  | busy =>
    cases hr : s.sinkReady with
    | false => exact .inl ⟨.inr rfl, encStep_not_ready hr⟩
    | true =>
      by_cases hx : s.enc.x.toNat / 128 = 0
      · exact .inr (.inr ⟨rfl, rfl, hx, encStep_last hp hr hx⟩)
      · exact .inr (.inl ⟨rfl, rfl, hx, encStep_more hp hr hx⟩)

/-! ## Command accept -/

/-- Accept latches the command and takes the record, or the encoder is BUSY and nothing changes. -/
theorem acceptEnc_cases (w : BitVec 2) (v : Operand) (s : State) :
    (s.enc.phase = .idle ∧ acceptEnc w v s =
      { s with enc := { phase := .busy, wsel := w, x := encOperand w v, cnt := 0 }, port := none })
    ∨ (s.enc.phase = .busy ∧ acceptEnc w v s = s) := by
  cases hp : s.enc.phase with
  | idle => exact .inl ⟨rfl, acceptEnc_idle hp w v⟩
  | busy => exact .inr ⟨rfl, acceptEnc_busy hp w v⟩

theorem acceptDec_cases (w : BitVec 2) (st : Bool) (s : State) :
    (s.dec.phase = .idle ∧ acceptDec w st s = { s with dec := decStart w st, port := none })
    ∨ (s.dec.phase = .busy ∧ acceptDec w st s = s) := by
  cases hp : s.dec.phase with
  | idle => exact .inl ⟨rfl, acceptDec_idle hp w st⟩
  | busy => exact .inr ⟨rfl, acceptDec_busy hp w st⟩

theorem exec_encInstr (w : BitVec 2) (v : Operand) (s : State) : exec (encInstr w v) s = .next (acceptEnc w v s) := by
  rcases width_cases w with ⟨rfl, -⟩ | ⟨rfl, -⟩ | ⟨rfl, -⟩ | ⟨rfl, -⟩ <;> rfl

theorem exec_decInstr (w : BitVec 2) (s : State) : exec (decInstr w) s = .next (acceptDec w false s) := by
  rcases width_cases w with ⟨rfl, -⟩ | ⟨rfl, -⟩ | ⟨rfl, -⟩ | ⟨rfl, -⟩ <;> rfl

theorem exec_decsInstr (w : BitVec 2) (s : State) : exec (decsInstr w) s = .next (acceptDec w true s) := by
  rcases width_cases w with ⟨rfl, -⟩ | ⟨rfl, -⟩ | ⟨rfl, -⟩ | ⟨rfl, -⟩ <;> rfl

/-- The command port's turn: no record and nothing happens, an accept at the encoder, an accept at the decoder, or a
refusal of a reserved code. -/
theorem portTurn_cases (s : State) :
    (s.port = none ∧ portTurn s = .next s)
    ∨ (∃ r, s.port = some r ∧ opOf (cmdOf r) = false ∧ strictOf (cmdOf r) = false
        ∧ portTurn s = .next (acceptEnc (wselOf (cmdOf r)) (operandOf r) s))
    ∨ (∃ r, s.port = some r ∧ opOf (cmdOf r) = true
        ∧ portTurn s = .next (acceptDec (wselOf (cmdOf r)) (strictOf (cmdOf r)) s))
    ∨ (∃ r, s.port = some r ∧ isReserved r = true ∧ portTurn s = .refused (.reservedCommand (cmdOf r))) := by
  cases hp : s.port with
  | none => exact .inl ⟨rfl, by simp [portTurn, hp]⟩
  | some r =>
    right
    rcases decodeRecord_cases r with ⟨ho, hs, hd⟩ | ⟨ho, hs, hd⟩ | ⟨ho, hs, hd⟩ | ⟨ho, hs, hd⟩
    · exact .inl ⟨r, rfl, ho, hs, by simp [portTurn, hp, hd, exec_encInstr]⟩
    · exact .inr (.inr ⟨r, rfl, by simp [isReserved, ho, hs], by simp [portTurn, hp, hd]⟩)
    · exact .inr (.inl ⟨r, rfl, ho, by simp [portTurn, hp, hd, hs, exec_decInstr]⟩)
    · exact .inr (.inl ⟨r, rfl, ho, by simp [portTurn, hp, hd, hs, exec_decsInstr]⟩)

/-! ## The decoder's turn -/

theorem exec_contb_cases (g : Group) (s : State) :
    (s.dec.phase = .idle ∧ exec (.contb g) s = .next s)
    ∨ (s.dec.phase = .busy ∧ groupOffends g s = true ∧ exec (.contb g) s = .next (takeOffending s))
    ∨ (s.dec.phase = .busy ∧ groupOffends g s = false ∧ exec (.contb g) s = .next (takeMore g s)) := by
  cases hp : s.dec.phase <;> cases ho : groupOffends g s <;> simp [exec, execContb, hp, ho]

theorem exec_lastb_cases (g : Group) (s : State) :
    (s.dec.phase = .idle ∧ exec (.lastb g) s = .next s)
    ∨ (s.dec.phase = .busy ∧ groupOffends g s = true ∧ exec (.lastb g) s = .next (takeOffending s))
    ∨ (s.dec.phase = .busy ∧ groupOffends g s = false ∧ exec (.lastb g) s = .next (takeLast g s)) := by
  cases hp : s.dec.phase <;> cases ho : groupOffends g s <;> simp [exec, execLastb, hp, ho]

/-- A BUSY decoder on a byte: Overflow, the command goes on, or it ends. -/
theorem exec_decodeByte_busy {s : State} (h : s.dec.phase = .busy) (b : Byte) :
    (groupOffends (groupOf b) s = true ∧ exec (decodeByte b) s = .next (takeOffending s))
    ∨ (groupOffends (groupOf b) s = false ∧ contOf b = true ∧ exec (decodeByte b) s = .next (takeMore (groupOf b) s))
    ∨ (groupOffends (groupOf b) s = false ∧ contOf b = false ∧ exec (decodeByte b) s = .next (takeLast (groupOf b) s)) := by
  unfold decodeByte
  cases hc : contOf b <;> cases ho : groupOffends (groupOf b) s <;> simp [exec, execContb, execLastb, h, ho]

theorem decTurn_idle {s : State} (h : s.dec.phase = .idle) : decTurn s = .next s := by simp [decTurn, h]

/-- The decoder waits, takes `End`, or takes a byte in one of the three ways. -/
theorem decTurn_cases (s : State) :
    ((s.dec.phase = .idle ∨ srcPeek s = none) ∧ decTurn s = .next s)
    ∨ (s.dec.phase = .busy ∧ srcPeek s = some .eoi ∧ decTurn s = .next (takeEnd s))
    ∨ (∃ b, s.dec.phase = .busy ∧ srcPeek s = some (.byte b) ∧ groupOffends (groupOf b) s = true
        ∧ decTurn s = .next (takeOffending s))
    ∨ (∃ b, s.dec.phase = .busy ∧ srcPeek s = some (.byte b) ∧ groupOffends (groupOf b) s = false ∧ contOf b = true
        ∧ decTurn s = .next (takeMore (groupOf b) s))
    ∨ (∃ b, s.dec.phase = .busy ∧ srcPeek s = some (.byte b) ∧ groupOffends (groupOf b) s = false ∧ contOf b = false
        ∧ decTurn s = .next (takeLast (groupOf b) s)) := by
  cases hp : s.dec.phase with
  | idle => exact .inl ⟨.inl rfl, decTurn_idle hp⟩
  | busy =>
    cases hk : srcPeek s with
    | none => exact .inl ⟨.inr rfl, by simp [decTurn, hp, hk]⟩
    | some sym =>
      cases sym with
      | eoi => exact .inr (.inl ⟨rfl, rfl, by simp [decTurn, hp, hk]⟩)
      | byte b =>
        have ht : decTurn s = exec (decodeByte b) s := by simp [decTurn, hp, hk]
        right; right
        rcases exec_decodeByte_busy hp b with ⟨ho, he⟩ | ⟨ho, hc, he⟩ | ⟨ho, hc, he⟩
        · exact .inl ⟨b, rfl, rfl, ho, ht.trans he⟩
        · exact .inr (.inl ⟨b, rfl, rfl, ho, hc, ht.trans he⟩)
        · exact .inr (.inr ⟨b, rfl, rfl, ho, hc, ht.trans he⟩)

/-- The decoder's turn always answers a next state. -/
theorem decTurn_next (s : State) : ∃ t, decTurn s = .next t := by
  rcases decTurn_cases s with ⟨-, h⟩ | ⟨-, -, h⟩ | ⟨b, -, -, -, h⟩ | ⟨b, -, -, -, -, h⟩ | ⟨b, -, -, -, -, h⟩ <;>
    exact ⟨_, h⟩

theorem srcPeek_cons {s : State} {sym : Symbol} {rest : List Symbol} (h : s.source = sym :: rest) :
    srcPeek s = some sym := by simp [srcPeek, h]

theorem srcPeek_nil {s : State} (h : s.source = []) :
    srcPeek s = if s.sourceEnded then some .eoi else none := by simp [srcPeek, h]

/-! ## The host's turn -/

/-- A host's act that answers a next state leaves the units alone, or is reset. -/
theorem hostAct_next {a : HostAct} {s t : State} (h : hostAct a s = .next t) :
    (∃ r, a = .offer r ∧ s.port = none ∧ t = { s with port := some r })
    ∨ (a = .withdraw ∧ ((s.port = none ∧ t = s) ∨ ∃ r, s.port = some r ∧ isReserved r = true ∧ t = { s with port := none }))
    ∨ (∃ w, a = .offerSymbol w ∧ t = { s with source := s.source ++ [decodeSymbol w] })
    ∨ (∃ syms e, a = .replaceSource syms e ∧ s.dec.phase = .idle ∧ t = { s with source := syms, sourceEnded := e })
    ∨ (∃ n, a = .presentSink n ∧ s.enc.phase = .idle ∧ s.dec.phase = .idle
        ∧ t = { s with source := (s.sink.drop n).map Symbol.byte, sourceEnded := true })
    ∨ (∃ bytes, a = .replaceSink bytes ∧ s.enc.phase = .idle ∧ t = { s with sink := bytes })
    ∨ (∃ b, a = .setSinkReady b ∧ t = { s with sinkReady := b })
    ∨ (a = .reset ∧ t = resetBlock s) := by
  cases a with
  | offer r =>
    left
    cases hp : s.port with
    | none => simp only [hostAct, hp, Host.Outcome.next.injEq] at h; exact ⟨r, rfl, rfl, h.symm⟩
    | some r' => simp [hostAct, hp] at h
  | withdraw =>
    right; left
    cases hp : s.port with
    | none => simp only [hostAct, hp, Host.Outcome.next.injEq] at h; exact ⟨rfl, .inl ⟨rfl, h.symm⟩⟩
    | some r =>
      cases hr : isReserved r with
      | false => simp [hostAct, hp, hr] at h
      | true =>
        simp only [hostAct, hp, hr, if_true, Host.Outcome.next.injEq] at h
        exact ⟨rfl, .inr ⟨r, rfl, hr, h.symm⟩⟩
  | offerSymbol w =>
    simp only [hostAct, Host.Outcome.next.injEq] at h
    exact .inr (.inr (.inl ⟨w, rfl, h.symm⟩))
  | replaceSource syms e =>
    cases hp : s.dec.phase with
    | idle =>
      simp only [hostAct, hp, Host.Outcome.next.injEq] at h
      exact .inr (.inr (.inr (.inl ⟨syms, e, rfl, rfl, h.symm⟩)))
    | busy => simp [hostAct, hp] at h
  | presentSink n =>
    cases he : s.enc.phase <;> cases hd : s.dec.phase <;> simp only [hostAct, he, hd, Host.Outcome.next.injEq, reduceCtorEq] at h
    exact .inr (.inr (.inr (.inr (.inl ⟨n, rfl, rfl, rfl, h.symm⟩))))
  | replaceSink bytes =>
    cases he : s.enc.phase with
    | idle =>
      simp only [hostAct, he, Host.Outcome.next.injEq] at h
      exact .inr (.inr (.inr (.inr (.inr (.inl ⟨bytes, rfl, rfl, h.symm⟩)))))
    | busy => simp [hostAct, he] at h
  | setSinkReady b =>
    simp only [hostAct, Host.Outcome.next.injEq] at h
    exact .inr (.inr (.inr (.inr (.inr (.inr (.inl ⟨b, rfl, h.symm⟩))))))
  | reset =>
    simp only [hostAct, Host.Outcome.next.injEq] at h
    exact .inr (.inr (.inr (.inr (.inr (.inr (.inr ⟨rfl, h.symm⟩))))))

end Sys2Proof.Machine
end

