-- ==== Sys2Proof/Laws/Runs.lean ====
section
/-! SUPPORT. A command in progress beside everything else: what the other turns leave alone (42_laws.md R136), and the responses owed on
the way to the end of a run (70_reset_and_hazards.md R181). -/

namespace Sys2Proof.Machine

/-- No turn but its own and reset touches a BUSY encoder, its sink or its responses. -/
theorem takeTurn_keeps_busy_enc {u : Turn} {s t : State} (hb : s.enc.phase = .busy) (hu : u ≠ .enc)
    (hr : u ≠ .host .reset) (h : takeTurn u s = .next t) :
    t.enc = s.enc ∧ t.sink = s.sink ∧ t.encOut = s.encOut ∧ t.sinkReady = u.readyAfter s.sinkReady ∧ t.turns = s.turns := by
  cases u with
  | enc => exact absurd rfl hu
  | accept =>
    rw [takeTurn_accept] at h
    rcases portTurn_cases s with ⟨-, e⟩ | ⟨r, -, -, -, e⟩ | ⟨r, -, -, e⟩ | ⟨r, -, -, e⟩ <;> rw [e] at h <;> cases h
    · exact ⟨rfl, rfl, rfl, rfl, rfl⟩
    · rw [acceptEnc_busy hb]; exact ⟨rfl, rfl, rfl, rfl, rfl⟩
    · rcases acceptDec_cases (wselOf (cmdOf r)) (strictOf (cmdOf r)) s with ⟨-, e⟩ | ⟨-, e⟩ <;> rw [e] <;>
        exact ⟨rfl, rfl, rfl, rfl, rfl⟩
  | dec =>
    rw [takeTurn_dec] at h
    rcases decTurn_cases s with ⟨-, e⟩ | ⟨-, -, e⟩ | ⟨b, -, -, -, e⟩ | ⟨b, -, -, -, -, e⟩ | ⟨b, -, -, -, -, e⟩ <;>
      rw [e] at h <;> cases h <;> simp [Turn.readyAfter]
  | host a =>
    rw [takeTurn_host] at h
    rcases hostAct_next h with ⟨r, rfl, -, rfl⟩ | ⟨rfl, ⟨-, rfl⟩ | ⟨r, -, -, rfl⟩⟩ | ⟨w, rfl, rfl⟩ | ⟨x, y, rfl, -, rfl⟩ |
      ⟨n, rfl, hi, -, rfl⟩ | ⟨x, rfl, hi, rfl⟩ | ⟨b, rfl, rfl⟩ | ⟨rfl, -⟩
    case inr.inr.inr.inr.inr.inl => rw [hb] at hi; cases hi
    case inr.inr.inr.inr.inr.inr.inr => exact absurd rfl hr
    all_goals exact ⟨rfl, rfl, rfl, rfl, rfl⟩

/-- No turn but its own and reset touches a BUSY decoder, its responses or what is on offer to it, but for a symbol handed over. -/
theorem takeTurn_keeps_busy_dec {u : Turn} {s t : State} (hb : s.dec.phase = .busy) (hu : u ≠ .dec)
    (hr : u ≠ .host .reset) (h : takeTurn u s = .next t) :
    t.dec = s.dec ∧ t.decOut = s.decOut ∧ t.sourceEnded = s.sourceEnded ∧ t.source = s.source ++ u.handed.toList
    ∧ t.turns = s.turns := by
  cases u with
  | dec => exact absurd rfl hu
  | accept =>
    rw [takeTurn_accept] at h
    rcases portTurn_cases s with ⟨-, e⟩ | ⟨r, -, -, -, e⟩ | ⟨r, -, -, e⟩ | ⟨r, -, -, e⟩ <;> rw [e] at h <;> cases h
    · simp [Turn.handed]
    · rcases acceptEnc_cases (wselOf (cmdOf r)) (operandOf r) s with ⟨-, e⟩ | ⟨-, e⟩ <;> rw [e] <;> simp [Turn.handed]
    · rw [acceptDec_busy hb]; simp [Turn.handed]
  | enc =>
    rw [takeTurn_enc] at h
    rcases encStep_cases s with ⟨-, e⟩ | ⟨-, -, -, e⟩ | ⟨-, -, -, e⟩ <;> rw [e] at h <;> cases h <;> simp [Turn.handed]
  | host a =>
    rw [takeTurn_host] at h
    rcases hostAct_next h with ⟨r, rfl, -, rfl⟩ | ⟨rfl, ⟨-, rfl⟩ | ⟨r, -, -, rfl⟩⟩ | ⟨w, rfl, rfl⟩ | ⟨x, y, rfl, hi, rfl⟩ |
      ⟨n, rfl, -, hi, rfl⟩ | ⟨x, rfl, -, rfl⟩ | ⟨b, rfl, rfl⟩ | ⟨rfl, -⟩
    case inr.inr.inr.inl => rw [hb] at hi; cases hi
    case inr.inr.inr.inr.inl => rw [hb] at hi; cases hi
    case inr.inr.inr.inr.inr.inr.inr => exact absurd rfl hr
    all_goals simp [Turn.handed]

/-! ## What a schedule gives -/

theorem readyEncTurns_enc (ready : Bool) (ts : List Turn) :
    readyEncTurns ready (.enc :: ts) = ready.toNat + readyEncTurns ready ts := by
  cases ready <;> simp [readyEncTurns, Turn.readyAfter]

theorem readyEncTurns_other {u : Turn} (h : u ≠ .enc) (ready : Bool) (ts : List Turn) :
    readyEncTurns ready (u :: ts) = readyEncTurns (u.readyAfter ready) ts := by
  simp [readyEncTurns, h]

@[simp] theorem symbolsFound_dec_cons (ended : Bool) (sym : Symbol) (source : List Symbol) (ts : List Turn) :
    symbolsFound ended (sym :: source) (.dec :: ts) = sym :: symbolsFound ended source ts := rfl

@[simp] theorem symbolsFound_dec_end (ts : List Turn) :
    symbolsFound true [] (.dec :: ts) = .eoi :: symbolsFound true [] ts := rfl

@[simp] theorem symbolsFound_dec_wait (ts : List Turn) : symbolsFound false [] (.dec :: ts) = symbolsFound false [] ts := rfl

theorem symbolsFound_other {u : Turn} (h : u ≠ .dec) (ended : Bool) (source : List Symbol) (ts : List Turn) :
    symbolsFound ended source (u :: ts) = symbolsFound ended (source ++ u.handed.toList) ts := by
  simp [symbolsFound, h]

@[simp] theorem handed_dec : Turn.handed .dec = none := rfl

/-! ## The end of a run -/

@[simp] theorem commandsLeft_nil : commandsLeft [] = [] := rfl

@[simp] theorem commandsLeft_cons (u : Turn) (ts : List Turn) : commandsLeft (u :: ts) = u.offered.toList ++ commandsLeft ts := by
  unfold commandsLeft
  cases h : u.offered <;> simp [h]

/-- At the end of a run no response is owed. -/
theorem owed_eq_zero_of_runOver {s : State} (h : s.runOver) : s.owed = 0 := by
  obtain ⟨h1, h2, h3, h4⟩ := h
  simp [State.owed, h1, h2, h3, h4, Phase.bit]

/-- A stuck state is not the end of a run. -/
theorem not_runOver_of_stuck {s : State} (h : s.stuck) : ¬s.runOver := by
  rintro ⟨h1, h2, -, -⟩
  rcases h with ⟨h, -⟩ | ⟨h, -⟩
  · rw [h1] at h; cases h
  · rw [h2] at h; cases h

/-- The responses owed and delivered, taken together. -/
theorem owed_step {s t : State} (h : step s = .next t) (hr : s.turns.head? ≠ some (.host .reset)) :
    t.owed + t.delivered = s.owed + s.delivered := by
  rcases step_cases s with ⟨-, he⟩ | ⟨u, ts, hu, he⟩ <;> rw [he] at h
  · cases h; rfl
  cases u with
  | accept =>
    rw [takeTurn_accept] at h
    rcases portTurn_cases { s with turns := ts } with ⟨-, e⟩ | ⟨r, hp, ho, hs, e⟩ | ⟨r, hp, ho, e⟩ | ⟨r, -, -, e⟩ <;>
      rw [e] at h <;> cases h
    · simp [State.owed, State.delivered, hu, Turn.offered]
    · have hn : isReserved r = false := by simp [isReserved, hs]
      simp only at hp
      rcases acceptEnc_cases (wselOf (cmdOf r)) (operandOf r) { s with turns := ts } with ⟨hi, e⟩ | ⟨-, e⟩ <;> rw [e]
      · simp only at hi
        simp [State.owed, State.delivered, hu, hp, hi, hn, Turn.offered, Phase.bit]; omega
      · simp [State.owed, State.delivered, hu, Turn.offered]
    · have hn : isReserved r = false := by simp [isReserved, ho]
      simp only at hp
      rcases acceptDec_cases (wselOf (cmdOf r)) (strictOf (cmdOf r)) { s with turns := ts } with ⟨hi, e⟩ | ⟨-, e⟩ <;> rw [e]
      · simp only at hi
        simp [State.owed, State.delivered, hu, hp, hi, hn, Turn.offered, Phase.bit, decStart]; omega
      · simp [State.owed, State.delivered, hu, Turn.offered]
  | enc =>
    rw [takeTurn_enc] at h
    rcases encStep_cases { s with turns := ts } with ⟨-, e⟩ | ⟨hp, -, -, e⟩ | ⟨hp, -, -, e⟩ <;> rw [e] at h <;> cases h <;>
      simp [State.owed, State.delivered, hu, Turn.offered, Phase.bit]
    simp only at hp
    simp [hp]; omega
  | dec =>
    rw [takeTurn_dec] at h
    rcases decTurn_cases { s with turns := ts } with ⟨-, e⟩ | ⟨hp, -, e⟩ | ⟨b, hp, -, -, e⟩ | ⟨b, hp, -, -, -, e⟩ |
      ⟨b, hp, -, -, -, e⟩ <;> rw [e] at h <;> cases h <;>
      simp [State.owed, State.delivered, hu, Turn.offered, Phase.bit]
    all_goals
      simp only at hp
      simp [hp]; omega
  | host a =>
    rw [takeTurn_host] at h
    rcases hostAct_next h with ⟨r, rfl, hp, rfl⟩ | ⟨rfl, ⟨hp, rfl⟩ | ⟨r, hp, hn, rfl⟩⟩ | ⟨w, rfl, rfl⟩ | ⟨x, y, rfl, -, rfl⟩ |
      ⟨n, rfl, -, -, rfl⟩ | ⟨x, rfl, -, rfl⟩ | ⟨b, rfl, rfl⟩ | ⟨rfl, -⟩
    case inr.inr.inr.inr.inr.inr.inr => rw [hu] at hr; exact absurd rfl hr
    all_goals simp [State.owed, State.delivered, hu, Turn.offered]
    all_goals
      simp only at hp
      simp [*]

/-- At the end of a run the outcome is fixed: whatever turn the block is given, it stays the end and nothing observable changes. -/
theorem runOver_step {s t : State} (ho : s.runOver) (h : step s = .next t) (hh : ∀ a, s.turns.head? ≠ some (.host a)) :
    t.observe = s.observe ∧ t.runOver := by
  obtain ⟨h1, h2, h3, h4⟩ := ho
  rcases step_cases s with ⟨-, he⟩ | ⟨u, ts, hu, he⟩ <;> rw [he] at h
  · cases h; exact ⟨rfl, h1, h2, h3, h4⟩
  have hts : commandsLeft ts = [] := by
    rw [hu, commandsLeft_cons] at h4
    exact (List.append_eq_nil_iff.1 h4).2
  cases u with
  | accept =>
    rw [takeTurn_accept] at h
    rcases portTurn_cases { s with turns := ts } with ⟨-, e⟩ | ⟨r, hp, -⟩ | ⟨r, hp, -⟩ | ⟨r, hp, -⟩
    · rw [e] at h; cases h; exact ⟨rfl, h1, h2, h3, hts⟩
    all_goals rw [show s.port = none from h3] at hp; cases hp
  | enc =>
    rw [takeTurn_enc, encStep_idle (by exact h1)] at h
    cases h; exact ⟨rfl, h1, h2, h3, hts⟩
  | dec =>
    rw [takeTurn_dec, decTurn_idle (by exact h2)] at h
    cases h; exact ⟨rfl, h1, h2, h3, hts⟩
  | host a => rw [hu] at hh; exact absurd rfl (hh a)

end Sys2Proof.Machine
end

