-- ==== Sys2Proof/Tests/Slice0.lean ====
section
/-! SUPPORT. Named tests: well-formedness, decoding, one step at a time, and a witness for the hypotheses of every statement. Expected
results are read from 95_test_vectors.md or from the rule named. -/

namespace Sys2Proof.Tests

open Sys2Proof.Machine

/-! ## Small states -/

/-- An encoder in the middle of a command. -/
def encAt (wsel : BitVec 2) (x : BitVec 64) (cnt : BitVec 4) : State :=
  { State.reset with enc := ⟨.busy, wsel, x, cnt⟩ }

/-- A decoder in the middle of a command, with symbols on offer. -/
def decAt (wsel : BitVec 2) (strict : Bool) (result : BitVec 64) (cnt : BitVec 4) (source : List Symbol) : State :=
  { State.reset with dec := ⟨.busy, wsel, strict, result, BitVec.ofNat 7 (7 * cnt.toNat), cnt⟩, source := source }

/-- A record on the command port and the port's turn next. -/
def offered (r : Record) : State := { State.reset with port := some r, turns := [.accept] }

/-- A state with a schedule. -/
def sched (turns : List Turn) (s : State) : State := { s with turns := turns }

/-- The state an outcome goes to; a stop shows as the state after reset. -/
def after : Host.Outcome State Fault Refusal → State
  | .next s => s
  | .fault _ => State.reset
  | .refused _ => State.reset

/-! ## Well-formedness (70_reset_and_hazards.md R175) -/

theorem test_wellFormed_enc8 : Instr.wellFormed (.enc8 0xFF) = true ∧ Instr.wellFormed (.enc8 0x100) = false := by decide

theorem test_wellFormed_enc16 : Instr.wellFormed (.enc16 0xFFFF) = true ∧ Instr.wellFormed (.enc16 0x10000) = false := by
  decide

theorem test_wellFormed_enc32 :
    Instr.wellFormed (.enc32 0xFFFFFFFF) = true ∧ Instr.wellFormed (.enc32 0x100000000) = false := by decide

theorem test_wellFormed_enc64 : Instr.wellFormed (.enc64 0xFFFFFFFFFFFFFFFF) = true := by decide

/-! ## Decoding: words written out from 30_encoding.md R51, R54, R56 -/

theorem test_decode_enc8 : decode (.record 0x000000000000000C8#68) = .ok (.enc8 200) := by decide
theorem test_decode_enc16 : decode (.record 0x1000000000000012C#68) = .ok (.enc16 300) := by decide
theorem test_decode_enc32 : decode (.record 0x20000000000098765#68) = .ok (.enc32 624485) := by decide
theorem test_decode_enc64 : decode (.record 0x38000000000000000#68) = .ok (.enc64 0x8000000000000000) := by decide
theorem test_decode_dec8 : decode (.record 0x40000000000000000#68) = .ok .dec8 := by decide
theorem test_decode_dec16 : decode (.record 0x50000000000000000#68) = .ok .dec16 := by decide
theorem test_decode_dec32 : decode (.record 0x60000000000000000#68) = .ok .dec32 := by decide
theorem test_decode_dec64 : decode (.record 0x70000000000000000#68) = .ok .dec64 := by decide
theorem test_decode_decs8 : decode (.record 0xC0000000000000000#68) = .ok .decs8 := by decide
theorem test_decode_decs16 : decode (.record 0xD0000000000000000#68) = .ok .decs16 := by decide
theorem test_decode_decs32 : decode (.record 0xE0000000000000000#68) = .ok .decs32 := by decide
theorem test_decode_decs64 : decode (.record 0xF0000000000000000#68) = .ok .decs64 := by decide
theorem test_decode_contb : decode (.byte 0b11100101#8) = .ok (.contb 0b1100101#7) := by decide
theorem test_decode_lastb : decode (.byte 0b00100110#8) = .ok (.lastb 0b0100110#7) := by decide

/-- R57: the four reserved codes (program E offers 0x9). -/
theorem test_decode_reserved :
    decode (.record 0x80000000000000000#68) = .error (.reservedCommand 0x8)
    ∧ decode (.record 0x90000000000000005#68) = .error (.reservedCommand 0x9)
    ∧ decode (.record 0xA0000000000000000#68) = .error (.reservedCommand 0xA)
    ∧ decode (.record 0xB0000000000000000#68) = .error (.reservedCommand 0xB) := ⟨rfl, rfl, rfl, rfl⟩

/-- R62. -/
theorem test_decode_symbol : decodeSymbol 0x1FF = .eoi ∧ decodeSymbol 0x0E5 = .byte 0xE5 := by decide

/-- The opcode table's words: `CMD` in four bits, a wire byte in eight (log 7). -/
theorem test_table_words :
    decodeTableWord 4 0x2 = some (.enc32 0) ∧ decodeTableWord 4 0xF = some .decs64 ∧ decodeTableWord 4 0x9 = none
    ∧ decodeTableWord 8 0x80 = some (.contb 0) ∧ decodeTableWord 8 0x26 = some (.lastb 0x26)
    ∧ decodeTableWord 8 0x100 = none := ⟨rfl, rfl, rfl, rfl, rfl, rfl⟩

/-- A placed command is the next thing to run. -/
theorem test_place_command :
    (after (step (State.reset.withFetchWord 4 0x6))).dec = ⟨.busy, 2, false, 0, 0, 0⟩ := by decide

/-- A placed byte is the next thing to run: `26` as the first byte of a decode is OK 0x26. -/
theorem test_place_byte :
    (after (step (State.reset.withFetchWord 8 0x26))).decOut = [.ok 0x26 1] := by decide

/-! ## One step at a time -/

/-- Section 2.2: bits above W are dropped at accept (program E, row 2). -/
theorem test_enc8_accept : (after (exec (.enc8 0x1FF) State.reset)).enc = ⟨.busy, 0, 0xFF, 0⟩ := by decide
/-- Program E, row 3: the record waits while ENC is BUSY. -/
theorem test_enc8_waits : (after (step { offered 0x00000000000000001#68 with enc := ⟨.busy, 0, 0xFF, 0⟩ })).port
    = some 0x00000000000000001#68 := by decide
theorem test_enc16_accept : (after (exec (.enc16 0x12345) State.reset)).enc = ⟨.busy, 1, 0x2345, 0⟩ := by decide
theorem test_enc32_accept : (after (exec (.enc32 0xABCDEF0000000001) State.reset)).enc = ⟨.busy, 2, 1, 0⟩ := by decide
theorem test_enc64_accept :
    (after (exec (.enc64 0xFFFFFFFFFFFFFFFF) State.reset)).enc = ⟨.busy, 3, 0xFFFFFFFFFFFFFFFF, 0⟩ := by decide

/-- Trace 3.1, step 1. -/
theorem test_enc_first_byte : after (step (sched [.enc] (encAt 2 0x98765 0)))
    = { State.reset with enc := ⟨.busy, 2, 0x130E, 1⟩, sink := [0xE5] } := by decide
/-- Trace 3.1, step 3. -/
theorem test_enc_last_byte : let t := after (step (sched [.enc] (encAt 2 0x26 2)))
    t.sink = [0x26] ∧ t.encOut = [⟨3⟩] ∧ t.enc.phase = .idle := by decide

theorem test_dec8_accept : (after (exec .dec8 State.reset)).dec = ⟨.busy, 0, false, 0, 0, 0⟩ := by decide
theorem test_dec16_accept : (after (exec .dec16 State.reset)).dec = ⟨.busy, 1, false, 0, 0, 0⟩ := by decide
theorem test_dec32_accept : (after (exec .dec32 State.reset)).dec = ⟨.busy, 2, false, 0, 0, 0⟩ := by decide
theorem test_dec64_accept : (after (exec .dec64 State.reset)).dec = ⟨.busy, 3, false, 0, 0, 0⟩ := by decide
theorem test_decs8_accept : (after (exec .decs8 State.reset)).dec = ⟨.busy, 0, true, 0, 0, 0⟩ := by decide
theorem test_decs16_accept : (after (exec .decs16 State.reset)).dec = ⟨.busy, 1, true, 0, 0, 0⟩ := by decide
theorem test_decs32_accept : (after (exec .decs32 State.reset)).dec = ⟨.busy, 2, true, 0, 0, 0⟩ := by decide
/-- R58: the operand of a decode is ignored. -/
theorem test_decs64_accept :
    (after (step (offered 0xFFFFFFFFFFFFFFFFF#68))).dec = ⟨.busy, 3, true, 0, 0, 0⟩ := by decide

/-- Trace 3.2, step 2. -/
theorem test_contb_accumulates :
    (after (step (sched [.dec] (decAt 2 false 0x65 1 [.byte 0x8E, .byte 0x26])))).dec
      = ⟨.busy, 2, false, 0x765, 14, 2⟩ := by decide
/-- Section 2.3, W = 8, `80 82 00`: Overflow, COUNT = 2, `00` left. -/
theorem test_contb_overflows :
    let t := after (step (sched [.dec] (decAt 0 false 0 1 [.byte 0x82, .byte 0x00])))
    t.decOut = [.error .overflow 2] ∧ t.source = [.byte 0x00] ∧ t.dec.phase = .idle := by decide
/-- Trace 3.4, step 10: a 10th group of 1 is legal at W = 64. -/
theorem test_lastb_answers :
    (after (step (sched [.dec] (decAt 3 true 0x7FFFFFFFFFFFFFFF 9 [.byte 0x01])))).decOut
      = [.ok 0xFFFFFFFFFFFFFFFF 10] := by decide
/-- Trace 3.8, step 3. -/
theorem test_lastb_nonCanonical :
    (after (step (sched [.dec] (decAt 2 true 0 2 [.byte 0x00])))).decOut = [.error .nonCanonical 3] := by decide
/-- Trace 3.7, step 2: `End` after one byte. -/
theorem test_end_of_input :
    let t := after (step (sched [.dec] { decAt 0 false 0 1 [] with sourceEnded := true }))
    t.decOut = [.error .unexpectedEndOfInput 1] ∧ t.dec.phase = .idle := by decide

/-- R181: with a command still to offer the run is not over, though both units are IDLE and the port is empty. -/
theorem test_run_not_over :
    ¬(sched [.host (.offer 0x40000000000000000#68)] State.reset).runOver
    ∧ (sched [.host (.offer 0x40000000000000000#68)] State.reset).owed = 1 := by decide
/-- R181: a decoder that waits for a symbol is stuck, and the run is not over. -/
theorem test_stuck : (decAt 0 false 0 1 []).stuck ∧ ¬(decAt 0 false 0 1 []).runOver := by decide
/-- R181: whether End remains in the source is part of the outcome. -/
theorem test_end_is_observed : { State.reset with sourceEnded := true }.observe ≠ State.reset.observe := by decide

/-! ## A witness for the hypotheses of every statement that has some -/

theorem witness_DecodeAndEncodeAgree : decode (.record 0x7FFFFFFFFFFFFFFFF#68) = .ok .dec64 := by decide

theorem witness_EveryByteHasOneClass :
    0x80 ≤ (0x80 : Byte).toNat ∧ 0x80 ≤ (0xFF : Byte).toNat ∧ (0x00 : Byte).toNat < 0x80 ∧ (0x7F : Byte).toNat < 0x80 := by
  decide
theorem witness_EveryByteHasOneClass_noPrefix :
    isEncoding [0x80, 0x00] = true ∧ isEncoding ([0x80, 0x00] ++ ([] : List Byte)) = true := by decide
theorem witness_EveryByteHasOneClass_first :
    (∀ x ∈ ([0x80, 0xFF] : List Byte), 0x80 ≤ x.toNat) ∧ (0x7F : Byte).toNat < 0x80 := by decide

theorem witness_SourceSymbolBits :
    0x100 ≤ (0x100 : SymbolBits).toNat ∧ 0x100 ≤ (0x1FF : SymbolBits).toNat ∧ (0x0FF : SymbolBits).toNat < 0x100 := by decide

theorem witness_StepRunsTheOfferedCommand :
    let s := offered 0x20000000000098765#68
    s.turns = [.accept] ∧ s.port = some 0x20000000000098765#68
    ∧ decode (.record 0x20000000000098765#68) = .ok (.enc32 624485) := ⟨rfl, rfl, rfl⟩

theorem witness_StepRunsTheSourceByte :
    let s := sched [.dec] (decAt 2 false 0x65 1 [.byte 0x8E, .byte 0x26])
    s.turns = [.dec] ∧ s.dec.phase = .busy ∧ s.source = .byte 0x8E :: [.byte 0x26] ∧ decode (.byte 0x8E) = .ok (.contb 0x0E) :=
  ⟨rfl, rfl, rfl, rfl⟩

theorem witness_ReservedCodeIsRefused_low :
    let r : Record := 0x80000000000000000#68
    (offered r).turns = [.accept] ∧ (offered r).port = some r ∧ 0x8 ≤ r.toNat / 2 ^ 64 ∧ r.toNat / 2 ^ 64 ≤ 0xB := by decide
theorem witness_ReservedCodeIsRefused_high :
    let r : Record := 0xBFFFFFFFFFFFFFFFF#68
    (offered r).turns = [.accept] ∧ (offered r).port = some r ∧ 0x8 ≤ r.toNat / 2 ^ 64 ∧ r.toNat / 2 ^ 64 ≤ 0xB := by decide

theorem witness_ReservedRecordStays :
    let r : Record := 0x90000000000000005#68
    let s := { encAt 0 0xFF 0 with port := some r, turns := [.enc] }
    s.port = some r ∧ 0x8 ≤ r.toNat / 2 ^ 64 ∧ r.toNat / 2 ^ 64 ≤ 0xB
    ∧ step s = .next { State.reset with enc := ⟨.busy, 0, 1, 1⟩, sink := [0xFF], port := some r }
    ∧ s.turns.head? ≠ some (.host .withdraw) := ⟨rfl, by decide, by decide, rfl, by decide⟩
theorem witness_ReservedRecordStays_withdrawn :
    let r : Record := 0x90000000000000005#68
    let s := sched [.host .withdraw] (offered r)
    s.port = some r ∧ 0x8 ≤ r.toNat / 2 ^ 64 ∧ r.toNat / 2 ^ 64 ≤ 0xB ∧ step s = .next State.reset
    ∧ s.turns.head? = some (.host .withdraw) := ⟨rfl, by decide, by decide, rfl, rfl⟩

theorem witness_EncoderAcceptLatches :
    let r : Record := 0x3FFFFFFFFFFFFFFFF#68
    State.reset.enc.phase = .idle ∧ (encAt 0 0xFF 0).enc.phase = .busy
    ∧ (offered r).turns = [.accept] ∧ (offered r).port = some r ∧ r.toNat / 2 ^ 66 = 0
    ∧ (offered r).enc.phase = .idle := by decide
theorem witness_DecoderAcceptStartsAfresh :
    let r : Record := 0x40000000000000000#68
    State.reset.dec.phase = .idle ∧ (decAt 0 false 0 1 []).dec.phase = .busy
    ∧ (offered r).turns = [.accept] ∧ (offered r).port = some r ∧ r.getLsbD 66 = true
    ∧ (offered r).dec.phase = .idle := by decide

theorem witness_IgnoredOperandBitsDoNotMatter :
    let v : Operand := 0xFFFFFFFF00000000
    let v' : Operand := 0
    v.toNat % 2 ^ 8 = v'.toNat % 2 ^ 8 ∧ v.toNat % 2 ^ 16 = v'.toNat % 2 ^ 16 ∧ v.toNat % 2 ^ 32 = v'.toNat % 2 ^ 32
    ∧ (0x4 : BitVec 4).getLsbD 2 = true ∧ (0xF : BitVec 4).getLsbD 2 = true := by decide

theorem witness_CommandsChangeTheirUnitOnly_enc :
    (Instr.enc16 300) ∈ [Instr.enc8 300, .enc16 300, .enc32 300, .enc64 300]
    ∧ exec (.enc16 300) State.reset = .next { State.reset with enc := ⟨.busy, 1, 300, 0⟩ } := ⟨by decide, rfl⟩
theorem witness_CommandsChangeTheirUnitOnly_dec :
    Instr.decs64 ∈ [Instr.dec8, .dec16, .dec32, .dec64, .decs8, .decs16, .decs32, .decs64]
    ∧ exec .decs64 State.reset = .next { State.reset with dec := ⟨.busy, 3, true, 0, 0, 0⟩ } := ⟨by decide, rfl⟩

theorem witness_EncoderStepEmitsOneByte :
    let s := sched [.enc] (encAt 2 128 0)
    s.turns = [.enc] ∧ s.enc.phase = .busy ∧ s.sinkReady = true ∧ s.enc.x.toNat / 128 ≠ 0 := by decide
theorem witness_EncoderStepEmitsOneByte_last :
    let s := sched [.enc] (encAt 2 127 0)
    s.turns = [.enc] ∧ s.enc.phase = .busy ∧ s.sinkReady = true ∧ s.enc.x.toNat / 128 = 0 := by decide

theorem witness_UnitsWaitOnTheirPorts :
    (sched [.enc] State.reset).turns = [.enc] ∧ (sched [.enc] State.reset).enc.phase = .idle
    ∧ { encAt 2 128 0 with sinkReady := false }.sinkReady = false
    ∧ (sched [.dec] State.reset).turns = [.dec] ∧ (sched [.dec] State.reset).dec.phase = .idle
    ∧ (decAt 0 false 0 1 []).source = [] ∧ (decAt 0 false 0 1 []).sourceEnded = false := by decide

/-- Clause 2: no record is offered beside the encode. -/
theorem witness_EncodeRunsToCompletion :
    let r : Record := 0x000000000000000C8#68
    let ts : List Turn := [.enc, .dec, .accept, .host (.setSinkReady false), .enc, .host (.setSinkReady true), .enc,
      .host (.offerSymbol 0x100)]
    let s := { State.reset with port := some r, turns := .accept :: (ts ++ []) }
    s.enc.phase = .idle ∧ s.port = some r ∧ decodeRecord r = .ok (encInstr 0 200) ∧ s.turns = .accept :: (ts ++ [])
    ∧ .host .reset ∉ ts ∧ maxLen (width 0) ≤ readyEncTurns s.sinkReady ts ∧ ∀ u ∈ ts, u = .enc ∨ u.besideEnc = true :=
  ⟨rfl, rfl, rfl, rfl, by decide, by decide, by decide⟩
/-- Clause 1: as in program D a decode command is offered, accepted and answered beside the encode, which waits for its sink. -/
theorem witness_EncodeRunsToCompletion_beside :
    let r : Record := 0x000000000000000C8#68
    let ts : List Turn := [.host (.setSinkReady false), .enc, .host (.offer 0xE0000000000000000#68), .accept, .dec,
      .host (.setSinkReady true), .enc, .enc]
    let s := { State.reset with port := some r, source := [.byte 0x26], turns := .accept :: (ts ++ []) }
    s.enc.phase = .idle ∧ s.port = some r ∧ decodeRecord r = .ok (encInstr 0 200) ∧ s.turns = .accept :: (ts ++ [])
    ∧ .host .reset ∉ ts ∧ maxLen (width 0) ≤ readyEncTurns s.sinkReady ts
    ∧ ∃ t, runSteps (ts.length + 1) s = .next t ∧ t.sink = [0xC8, 0x01] ∧ t.decOut = [.ok 0x26 1] :=
  ⟨rfl, rfl, rfl, rfl, by decide, by decide, _, rfl, rfl, rfl⟩

theorem witness_AbandonedEncodeLeavesAPrefix :
    let s := { State.reset with enc := ⟨.busy, 1, BitVec.ofNat 64 (300 % 2 ^ width 1), 0⟩,
                                turns := List.replicate 1 Turn.enc ++ (Turn.host .reset :: []) }
    let v : Operand := 300
    s.enc = ⟨.busy, 1, BitVec.ofNat 64 (v.toNat % 2 ^ width 1), 0⟩ ∧ s.sinkReady = true
    ∧ s.turns = List.replicate 1 Turn.enc ++ (Turn.host .reset :: []) ∧ 1 < (encodeW (width 1) v.toNat).length := by decide

theorem witness_ZeroEncodesAsOneByte :
    let s := sched [.enc] (encAt 3 0 0)
    s.turns = [.enc] ∧ s.enc.phase = .busy ∧ s.enc.x = 0 ∧ s.enc.cnt = 0 ∧ s.sinkReady = true := by decide

theorem witness_EncodingBytesAreTheGroups :
    255 < 2 ^ 8 ∧ 0 < (encodeW 8 255).length ∧ 1 < (encodeW 8 255).length := by decide
theorem witness_EncodingIsWellFormedWithItsValue : 0 < 2 ^ 0 ∧ 255 < 2 ^ 8 := by decide
theorem witness_EncodingLengthIsMinimal :
    127 < 2 ^ 8 ∧ 127 ≤ 127 ∧ 128 < 2 ^ 8 ∧ 128 ≤ 128 ∧ 16383 < 2 ^ 16 ∧ 128 ≤ 16383 ∧ 16383 ≤ 16383
    ∧ 1 ≤ 2 ∧ 16383 < 2 ^ (7 * 2) := by decide
theorem witness_MaximumLengths :
    1 ≤ 8 ∧ decodeW 8 [0xFF, 0x01] false = .ok 255 2 ∧ decodeW 8 [0x80, 0x00] true = .error .nonCanonical 2 := by decide
theorem witness_LastByteOfALongestEncoding :
    (encodeW (width 0) 255).length = maxLen (width 0) ∧ (encodeW (width 1) 65535).length = maxLen (width 1)
    ∧ (encodeW (width 2) 268435456).length = maxLen (width 2)
    ∧ (encodeW (width 3) (2 ^ 63)).length = maxLen (width 3) := by decide

theorem witness_DecoderStepFollowsTheAlgorithm_end :
    let s := sched [.dec] { decAt 0 false 0 1 [] with sourceEnded := true }
    s.turns = [.dec] ∧ s.dec.phase = .busy ∧ srcPeek s = some .eoi := by decide
theorem witness_DecoderStepFollowsTheAlgorithm_byte :
    let s := sched [.dec] (decAt 0 false 0 1 [.byte 0x82, .byte 0x00])
    s.turns = [.dec] ∧ s.dec.phase = .busy ∧ srcPeek s = some (.byte 0x82) := by decide

theorem witness_ContinuationByteAccumulates :
    let s := decAt 0 false 0x7F 1 [.byte 0x81]
    s.dec.phase = .busy ∧ s.dec.shift.toNat < width s.dec.wsel
    ∧ (1 : Group).toNat * 2 ^ s.dec.shift.toNat < 2 ^ width s.dec.wsel := by decide
theorem witness_LastByteAnswersOk_lenient :
    let s := decAt 0 false 0x7F 1 [.byte 0x00]
    s.dec.phase = .busy ∧ s.dec.shift.toNat < width s.dec.wsel
    ∧ (0 : Group).toNat * 2 ^ s.dec.shift.toNat < 2 ^ width s.dec.wsel
    ∧ (s.dec.strict = false ∨ (0 : Group) ≠ 0 ∨ s.dec.cnt = 0) := by decide
theorem witness_LastByteAnswersOk_strict :
    let s := decAt 0 true 0x7F 1 [.byte 0x01]
    s.dec.phase = .busy ∧ s.dec.shift.toNat < width s.dec.wsel
    ∧ (1 : Group).toNat * 2 ^ s.dec.shift.toNat < 2 ^ width s.dec.wsel
    ∧ (s.dec.strict = false ∨ (1 : Group) ≠ 0 ∨ s.dec.cnt = 0) := by decide
theorem witness_LastByteAnswersOk_first :
    let s := decAt 0 true 0 0 [.byte 0x00]
    s.dec.phase = .busy ∧ s.dec.shift.toNat < width s.dec.wsel
    ∧ (0 : Group).toNat * 2 ^ s.dec.shift.toNat < 2 ^ width s.dec.wsel
    ∧ (s.dec.strict = false ∨ (0 : Group) ≠ 0 ∨ s.dec.cnt = 0) := by decide
theorem witness_PaddedLastByteIsNonCanonical :
    let s := decAt 0 true 0x7F 1 [.byte 0x00]
    DecInv s ∧ s.dec.phase = .busy ∧ s.dec.strict = true ∧ s.dec.cnt ≠ 0
    ∧ s.dec.cnt.toNat < maxLen (width s.dec.wsel) := by decide
theorem witness_PaddedLastByteIsNonCanonical_lenient :
    (decAt 0 false 0x7F 1 [.byte 0x00]).dec.strict = false
    ∧ ∃ t, exec (.lastb 0) (decAt 0 false 0x7F 1 [.byte 0x00]) = .next t := ⟨rfl, _, rfl⟩
theorem witness_OffendingByteOverflows_index :
    let s := decAt 0 false 0 2 [.byte 0x00]
    DecInv s ∧ s.dec.phase = .busy ∧ maxLen (width s.dec.wsel) ≤ s.dec.cnt.toNat := by decide
theorem witness_OffendingByteOverflows_value :
    let s := decAt 3 false 0x7FFFFFFFFFFFFFFF 9 [.byte 0x82]
    DecInv s ∧ s.dec.phase = .busy ∧ 2 ^ width s.dec.wsel ≤ (2 : Group).toNat * 2 ^ (7 * s.dec.cnt.toNat) := by decide
theorem witness_BytesChangeTheDecoderOnly_idle :
    State.reset.dec.phase = .idle ∧ exec (.contb 0x65) State.reset = .next State.reset := ⟨rfl, rfl⟩
theorem witness_BytesChangeTheDecoderOnly_busy :
    (decAt 0 false 0x7F 1 [.byte 0x01]).dec.phase = .busy
    ∧ ∃ t, exec (.lastb 1) (decAt 0 false 0x7F 1 [.byte 0x01]) = .next t := ⟨rfl, _, rfl⟩

theorem witness_NoBitIsLostInTheAccumulator :
    (0x7F : BitVec 64).toNat < 2 ^ (min (width 0) (7 : BitVec 7).toNat)
    ∧ offending (width 0) (7 : BitVec 7).toNat 1 = false := by decide

/-- Clause 2, lenient, on a buffer. -/
theorem witness_DecodeRunsToCompletion_lenient :
    let r : Record := 0x40000000000000000#68
    let bytes : List Byte := [0x80, 0x80, 0x00, 0xFF]
    let ts : List Turn := [.dec, .enc, .accept, .dec, .host (.setSinkReady false), .dec]
    let s := { State.reset with port := some r, source := bytes.map Symbol.byte, sourceEnded := true,
                                turns := .accept :: (ts ++ []) }
    s.dec.phase = .idle ∧ s.port = some r ∧ decodeRecord r = .ok (if false = true then decsInstr 0 else decInstr 0)
    ∧ s.turns = .accept :: (ts ++ []) ∧ .host .reset ∉ ts ∧ s.source = bytes.map Symbol.byte ∧ s.sourceEnded = true
    ∧ (∀ u ∈ ts, u = .dec ∨ u.besideDec = true) ∧ maxRead (width 0) ≤ ts.count .dec :=
  ⟨rfl, rfl, rfl, rfl, by decide, rfl, rfl, by decide, by decide⟩
/-- Clause 2, strict, on an empty buffer. -/
theorem witness_DecodeRunsToCompletion_strict :
    let r : Record := 0xE0000000000000000#68
    let ts : List Turn := List.replicate 6 .dec
    let s := { State.reset with port := some r, source := ([] : List Byte).map Symbol.byte, sourceEnded := true,
                                turns := .accept :: (ts ++ []) }
    s.dec.phase = .idle ∧ s.port = some r ∧ decodeRecord r = .ok (if true = true then decsInstr 2 else decInstr 2)
    ∧ s.turns = .accept :: (ts ++ []) ∧ .host .reset ∉ ts ∧ s.source = ([] : List Byte).map Symbol.byte
    ∧ s.sourceEnded = true ∧ (∀ u ∈ ts, u = .dec ∨ u.besideDec = true) ∧ maxRead (width 2) ≤ ts.count .dec :=
  ⟨rfl, rfl, rfl, rfl, by decide, rfl, rfl, by decide, by decide⟩
/-- Clause 1: a lazy source hands symbols over while the decoder waits, and an encode command is offered, accepted and answered
beside the decode (trace 3.5: the third byte is Overflow). -/
theorem witness_DecodeRunsToCompletion_beside :
    let r : Record := 0x40000000000000000#68
    let ts : List Turn := [.dec, .host (.offerSymbol 0x080), .dec, .host (.offer 0x00000000000000001#68), .accept, .enc,
      .host (.offerSymbol 0x080), .dec, .dec, .host (.offerSymbol 0x000), .dec]
    let s := { State.reset with port := some r, turns := .accept :: (ts ++ []) }
    s.dec.phase = .idle ∧ s.port = some r ∧ decodeRecord r = .ok (if false = true then decsInstr 0 else decInstr 0)
    ∧ s.turns = .accept :: (ts ++ []) ∧ .host .reset ∉ ts
    ∧ maxRead (width 0) ≤ (symbolsFound s.sourceEnded s.source ts).length
    ∧ ∃ t, runSteps (ts.length + 1) s = .next t ∧ t.decOut = [.error .overflow 3] ∧ t.sink = [0x01] :=
  ⟨rfl, rfl, rfl, rfl, by decide, by decide, _, rfl, rfl, rfl⟩

theorem witness_EncodeThenDecodeRoundTrips : 1 ≤ 1 ∧ 1 < 2 ^ 1 ∧ 1 ≤ 64 ∧ 2 ^ 64 - 1 < 2 ^ 64 := by decide
theorem witness_AcceptanceInClosedForm :
    let bytes : List Byte := [0x80, 0x80, 0x00]
    bytes[2]? = some 0x00 ∧ bytes[0]? = some 0x80 ∧ bytes[1]? = some 0x80 ∧ offending 8 (7 * 0) (groupOf 0x80) = false
    ∧ offending 8 (7 * 1) (groupOf 0x80) = false := by decide
theorem witness_StrictAcceptsExactlyCanonical :
    isEncoding [0x81, 0x00] = true ∧ isEncoding [0x01] = true ∧ 1 ≤ 8 := by decide
theorem witness_AcceptedEncodingsOfAValue : 1 ≤ 32 ∧ 1 < 2 ^ 32 := by decide
theorem witness_WideningKeepsDecodes_ok : 1 ≤ 8 ∧ 8 ≤ 16 ∧ decodeW 8 [0xFF, 0x01] false = .ok 255 2 := by decide
theorem witness_WideningKeepsDecodes_error :
    1 ≤ 8 ∧ 8 ≤ 16 ∧ decodeW 16 [0xFF, 0xFF, 0x04] false = .error .overflow 3 := by decide
theorem witness_WideningKeepsDecodes_end :
    1 ≤ 8 ∧ 8 ≤ 16 ∧ decodeW 16 [0x80, 0x80, 0x80] false = .error .unexpectedEndOfInput 3 := by decide
theorem witness_StreamsDecodeInOrder :
    ∀ p ∈ ([(8, 200), (16, 300), (64, 2 ^ 64 - 1)] : List (Nat × Nat)), 1 ≤ p.1 ∧ p.2 < 2 ^ p.1 := by decide
theorem witness_DecodeFromTheMiddleOfAnEncoding : 1 ≤ 8 ∧ 255 < 2 ^ 8 ∧ 1 < (encodeW 8 255).length := by decide
theorem witness_DecodeDependsOnItsFirstBytes :
    1 ≤ 8 ∧ ([0x80, 0x80, 0x80, 0x01] : List Byte).take (maxRead 8) = ([0x80, 0x80, 0x80, 0x02] : List Byte).take (maxRead 8)
    ∧ decodeW 8 [0xC8, 0x01, 0xAA] false ≠ .error .unexpectedEndOfInput ([0xC8, 0x01, 0xAA] : List Byte).length := by decide
theorem witness_ResponseCountRanges : 7 ≤ 7 ∧ 7 ≤ 8 := by decide

theorem witness_StepKeepsTheInvariants :
    let s := sched [.enc] { encAt 2 0x130E 1 with sink := [0xE5], dec := ⟨.busy, 2, false, 0x65, 7, 1⟩ }
    s.Inv ∧ step s = .next { s with enc := ⟨.busy, 2, 0x26, 2⟩, sink := [0xE5, 0x8E], turns := [] } := ⟨by decide, rfl⟩
theorem witness_ResetTouchesTheRegistersOnly :
    (sched [.host .reset] (encAt 2 0x130E 1)).turns = [.host .reset] := rfl
theorem witness_UnitStepsCommute :
    (∃ t, takeTurn .enc (encAt 2 0x26 2) = .next t) ∧ ∃ t, takeTurn .dec (decAt 0 false 0 1 [.byte 0x01]) = .next t :=
  ⟨⟨_, rfl⟩, _, rfl⟩
theorem witness_UnitStepDependsOnItsOwnSide :
    let s := encAt 2 0x26 2
    let t := { encAt 2 0x26 2 with sink := [0xAA], dec := ⟨.busy, 0, false, 0, 0, 0⟩ }
    let s' := decAt 0 false 0 1 [.byte 0x01]
    let t' := { decAt 0 false 0 1 [.byte 0x01, .eoi] with sink := [0xAA] }
    s ≠ t ∧ s.enc = t.enc ∧ s.sinkReady = t.sinkReady ∧ s' ≠ t' ∧ s'.dec = t'.dec ∧ srcPeek s' = srcPeek t' := by decide
theorem witness_RunningCommandIgnoresThePort :
    (∃ t, takeTurn .enc (encAt 2 0x26 2) = .next t) ∧ ∃ t, takeTurn .dec (decAt 0 false 0 1 [.byte 0x01]) = .next t :=
  ⟨⟨_, rfl⟩, _, rfl⟩
theorem witness_IdleRegistersReachNoOutput :
    let s := { State.reset with enc := ⟨.idle, 2, 5, 3⟩, dec := ⟨.idle, 1, true, 7, 14, 2⟩ }
    s ≠ State.reset ∧ s.forgetIdle = State.reset.forgetIdle := by decide
theorem witness_StepsRefuse_reserved :
    step (offered 0x90000000000000005#68) = .refused (.reservedCommand 0x9) := rfl
theorem witness_StepsRefuse_port :
    step (sched [.host (.offer 0x40000000000000000#68)] (offered 0x50000000000000000#68)) = .refused .portOccupied
    ∧ step (sched [.host .withdraw] (offered 0x50000000000000000#68)) = .refused .recordNotHeld := ⟨rfl, rfl⟩
theorem witness_StepsRefuse_shared :
    step (sched [.host (.replaceSink [])] (encAt 2 0x26 2)) = .refused .sharedSink
    ∧ step (sched [.host (.presentSink 0)] (encAt 2 0x26 2)) = .refused .sharedSink
    ∧ step (sched [.host (.replaceSource [] true)] (decAt 0 false 0 1 [])) = .refused .sharedSource
    ∧ step (sched [.host (.presentSink 0)] (decAt 0 false 0 1 [])) = .refused .sharedSource := ⟨rfl, rfl, rfl, rfl⟩
theorem witness_OneResponsePerCommand_dec :
    let s := sched [.dec] (decAt 0 false 0 1 [.byte 0x01])
    (∃ t, step s = .next t ∧ t.dec.phase = .idle) ∧ s.turns.head? ≠ some (.host .reset) ∧ s.dec.phase = .busy :=
  ⟨⟨_, rfl, rfl⟩, by decide, rfl⟩
theorem witness_OneResponsePerCommand_enc :
    let s := sched [.enc] (encAt 2 0x26 2)
    (∃ t, step s = .next t ∧ t.enc.phase = .idle ∧ t.dec.phase = .idle) ∧ s.turns.head? ≠ some (.host .reset)
    ∧ s.enc.phase = .busy ∧ s.dec.phase = .idle := ⟨⟨_, rfl, rfl, rfl⟩, by decide, rfl, rfl⟩
theorem witness_SinkIsAppendOnly :
    let s := sched [.enc] (encAt 2 0x26 2)
    (∃ t, step s = .next t ∧ t.sink = s.sink ++ [0x26]) ∧ ∀ bytes, s.turns.head? ≠ some (.host (.replaceSink bytes)) :=
  ⟨⟨_, rfl, rfl⟩, fun _ h => (by cases h)⟩
theorem witness_SourceIsTakenFromTheFront_dec :
    let s := sched [.dec] (decAt 0 false 0 1 [.byte 0x01])
    (∃ t, step s = .next t) ∧ (∀ act, s.turns.head? ≠ some (.host act)) ∧ s.turns.head? = some .dec ∧ s.dec.phase = .busy :=
  ⟨⟨_, rfl⟩, fun _ h => (by cases h), rfl, rfl⟩
theorem witness_SourceIsTakenFromTheFront_other :
    let s := sched [.enc] (decAt 0 false 0 1 [.byte 0x01])
    (∃ t, step s = .next t) ∧ (∀ act, s.turns.head? ≠ some (.host act)) ∧ s.turns.head? ≠ some .dec :=
  ⟨⟨_, rfl⟩, fun _ h => (by cases h), by decide⟩
theorem witness_SharedBuffersAreRefused_sink :
    (encAt 2 0x26 2).enc.phase = .busy
    ∧ (sched [.host (.replaceSink [])] (encAt 2 0x26 2)).turns = [.host (.replaceSink [])]
    ∧ (sched [.host (.presentSink 0)] (encAt 2 0x26 2)).turns = [.host (.presentSink 0)] := ⟨rfl, rfl, rfl⟩
theorem witness_SharedBuffersAreRefused_source :
    (decAt 0 false 0 1 []).enc.phase = .idle ∧ (decAt 0 false 0 1 []).dec.phase = .busy
    ∧ (sched [.host (.replaceSource [] true)] (decAt 0 false 0 1 [])).turns = [.host (.replaceSource [] true)]
    ∧ (sched [.host (.presentSink 1)] (decAt 0 false 0 1 [])).turns = [.host (.presentSink 1)] := ⟨rfl, rfl, rfl, rfl⟩
theorem witness_HostActsOnThePorts :
    let r : Record := 0x40000000000000000#68
    (sched [.host (.offer r)] State.reset).turns = [.host (.offer r)] ∧ State.reset.port = none ∧ (offered r).port = some r
    ∧ (sched [.host (.offerSymbol 0x100)] State.reset).turns = [.host (.offerSymbol 0x100)]
    ∧ (sched [.host (.presentSink 0)] State.reset).turns = [.host (.presentSink 0)]
    ∧ State.reset.enc.phase = .idle ∧ State.reset.dec.phase = .idle
    ∧ (sched [.host (.setSinkReady false)] State.reset).turns = [.host (.setSinkReady false)]
    ∧ (sched [.host (.replaceSource [.eoi] false)] State.reset).turns = [.host (.replaceSource [.eoi] false)]
    ∧ (sched [.host (.replaceSink [0xAA])] State.reset).turns = [.host (.replaceSink [0xAA])] := by decide
/-- A reserved record (program E) and one the host must hold. -/
theorem witness_HostActsOnThePorts_withdraw :
    let r : Record := 0x90000000000000005#68
    let r' : Record := 0x40000000000000000#68
    (sched [.host .withdraw] (offered r)).turns = [.host .withdraw] ∧ (offered r).port = some r
    ∧ 0x8 ≤ r.toNat / 2 ^ 64 ∧ r.toNat / 2 ^ 64 ≤ 0xB ∧ (offered r').port = some r' ∧ decodeRecord r' = .ok .dec8 :=
  ⟨rfl, rfl, by decide, by decide, rfl, rfl⟩

end Sys2Proof.Tests
end

section
/-! PROOF. The pseudo-commands' expansions (00_scope.md R4, 30_encoding.md R64): a `CMD` put together from its class bits `STRICT`, `OP`
and a width select gives its fields back, so each class decodes to its own command at that width select. -/

namespace Sys2Proof

/-! ## The fields of a `CMD` written as `{STRICT, OP} ++ WSEL` (R55) -/

@[simp] theorem wselOf_append (c w : BitVec 2) : wselOf (c ++ w : BitVec 4) = w :=
  BitVec.extractLsb'_append_eq_right

@[simp] theorem opOf_append (c w : BitVec 2) : opOf (c ++ w : BitVec 4) = c.getLsbD 0 := by
  rw [opOf, BitVec.getLsbD_append, if_neg (by decide)]

@[simp] theorem strictOf_append (c w : BitVec 2) : strictOf (c ++ w : BitVec 4) = c.getLsbD 1 := by
  rw [strictOf, BitVec.getLsbD_append, if_neg (by decide)]

/-! ## What a record of each accepted class decodes to (R56) -/

theorem decodeRecord_encode_class (w : BitVec 2) (v : Operand) :
    decodeRecord (recordOf (0b00#2 ++ w : BitVec 4) v) = .ok (encInstr w v) := by
  simp [decodeRecord]

theorem decodeRecord_lenient_class (w : BitVec 2) (v : Operand) :
    decodeRecord (recordOf (0b01#2 ++ w : BitVec 4) v) = .ok (decInstr w) := by
  simp [decodeRecord]

theorem decodeRecord_strict_class (w : BitVec 2) (v : Operand) :
    decodeRecord (recordOf (0b11#2 ++ w : BitVec 4) v) = .ok (decsInstr w) := by
  simp [decodeRecord]

/-- Settles O8: a record of each class decodes to the command its pseudo-command expands to, at every width select; `PTR_W` is one
of them. -/
theorem pseudoCommandsShareOneWidth : Obligations.PseudoCommandsShareOneWidth :=
  ⟨fun w v => ⟨decodeRecord_encode_class w v, decodeRecord_lenient_class w v, decodeRecord_strict_class w v⟩,
    fun v => ⟨decodeRecord_encode_class Config.ptrWsel v, decodeRecord_lenient_class Config.ptrWsel v,
      decodeRecord_strict_class Config.ptrWsel v⟩⟩

end Sys2Proof
end

section
/-! PROOF. The invariants of 10_state.md R26: reset establishes them, and every turn keeps them. ENC's invariant speaks of ENC's registers
and the sink, DEC's of DEC's registers, so only the steps that write those need an argument: `acceptEnc`, `emitMore`, `acceptDec` and
`takeMore`. -/

namespace Sys2Proof.Machine

/-! ## What the invariants speak of -/

theorem encInv_of_idle {s : State} (h : s.enc.phase = .idle) : EncInv s := by
  intro hb
  rw [h] at hb
  cases hb

theorem decInv_of_idle {s : State} (h : s.dec.phase = .idle) : DecInv s := by
  intro hb
  rw [h] at hb
  cases hb

theorem encInv_congr {s t : State} (he : t.enc = s.enc) (hk : t.sink = s.sink) (hs : EncInv s) : EncInv t := by
  simpa only [EncInv, he, hk] using hs

theorem decInv_congr {s t : State} (hd : t.dec = s.dec) (hs : DecInv s) : DecInv t := by
  simpa only [DecInv, hd] using hs

/-! ## The steps that write what an invariant speaks of -/

theorem acceptEnc_keeps_encInv (w : BitVec 2) (v : Operand) {s : State} (hs : EncInv s) : EncInv (acceptEnc w v s) := by
  rcases acceptEnc_cases w v s with ⟨-, e⟩ | ⟨-, e⟩ <;> rw [e]
  · have hx : (encOperand w v).toNat < 2 ^ width w := by
      rw [encOperand_toNat]
      exact Nat.mod_lt _ (by positivity)
    have hl : 0 < maxLen (width w) := (lt_maxLen_iff _ _).2 (by have := le_width w; omega)
    exact fun _ => ⟨by simpa using hx, .inl rfl, Nat.succ_le_of_lt hl, Nat.zero_le _, by simp⟩
  · exact hs

theorem acceptDec_keeps_decInv (w : BitVec 2) (st : Bool) {s : State} (hs : DecInv s) : DecInv (acceptDec w st s) := by
  rcases acceptDec_cases w st s with ⟨-, e⟩ | ⟨-, e⟩ <;> rw [e]
  · exact fun _ => ⟨rfl, Nat.zero_le _, by simp [decStart]⟩
  · exact hs

/-- A byte count in range does not wrap at its register's width (42_laws.md R122 (f)). -/
theorem cnt_succ_toNat {c : BitVec 4} {w : BitVec 2} (h : c.toNat < maxLen (width w)) : (c + 1).toNat = c.toNat + 1 := by
  have := maxLen_width_le w
  exact BitVec.toNat_add_of_lt (show c.toNat + 1 < 2 ^ 4 by omega)

/-- A value of more than one group that fits the bits left leaves room for another byte, and what is left of it fits the bits that are
then left. -/
theorem rest_fits {x w i : Nat} (hx : x < 2 ^ (w - 7 * i)) (hm : x / 128 ≠ 0) :
    i + 1 < maxLen w ∧ x / 128 < 2 ^ (w - 7 * (i + 1)) := by
  have hw : 7 < w - 7 * i := by
    by_contra hle
    have : 2 ^ (w - 7 * i) ≤ 2 ^ 7 := Nat.pow_le_pow_right (by norm_num) (by omega)
    omega
  refine ⟨(lt_maxLen_iff _ _).2 (by omega), ?_⟩
  rw [Nat.div_lt_iff_lt_mul (by norm_num)]
  calc x < 2 ^ (w - 7 * i) := hx
    _ = 2 ^ (w - 7 * (i + 1)) * 128 := by rw [show w - 7 * i = w - 7 * (i + 1) + 7 by omega, pow_add]; norm_num

/-- A continuation byte at the end of the sink makes the last `n + 1` bytes `CONTB` when the last `n` were. -/
theorem last_bytes_contb_append {sink : List Byte} {n : Nat}
    (hc : ∀ b ∈ sink.drop (sink.length - n), contOf b = true) (g : Group) :
    ∀ b ∈ (sink ++ [wireByte true g]).drop ((sink ++ [wireByte true g]).length - (n + 1)), contOf b = true := by
  have hd : (sink ++ [wireByte true g]).drop ((sink ++ [wireByte true g]).length - (n + 1)) =
      sink.drop (sink.length - n) ++ [wireByte true g] := by
    rw [← List.drop_append_of_le_length (Nat.sub_le _ _)]
    congr 1
    simp
  rw [hd]
  intro b hb
  rcases List.mem_append.1 hb with hb | hb
  · exact hc b hb
  · rw [List.mem_singleton.1 hb, contOf_wireByte]

theorem emitMore_keeps_encInv {s : State} (hs : EncInv s) (hb : s.enc.phase = .busy) (hm : s.enc.x.toNat / 128 ≠ 0) :
    EncInv (emitMore s) := by
  obtain ⟨hx, -, hl, hk, hc⟩ := hs hb
  have hcnt := cnt_succ_toNat (Nat.lt_of_succ_le hl)
  obtain ⟨hlen, hrest⟩ := rest_fits hx hm
  have hne : encRest s.enc.x ≠ 0 := fun h => hm (by rw [← encRest_toNat, h]; rfl)
  intro _
  simp only [emitMore_enc, emitMore_sink, hcnt, encRest_toNat]
  exact ⟨hrest, .inr hne, hlen, by simpa using hk, last_bytes_contb_append hc _⟩

/-- A group that is not offending leaves the accumulator below both bounds of R26. -/
theorem accumulate_lt {result : BitVec 64} {shift : BitVec 7} {g : Group} {w : Nat}
    (hr : result.toNat < 2 ^ min w shift.toNat) (ho : offending w shift.toNat g = false) :
    (accumulate result shift g).toNat < 2 ^ min w (shift.toNat + 7) := by
  obtain ⟨-, hg⟩ := (offending_eq_false_iff _ _ _).1 ho
  have hg7 : g.toNat * 2 ^ shift.toNat < 2 ^ (shift.toNat + 7) := by
    rw [Nat.add_comm, pow_add]
    exact Nat.mul_lt_mul_of_pos_right g.isLt (by positivity)
  have hmin : g.toNat * 2 ^ shift.toNat < 2 ^ min w (shift.toNat + 7) := by
    rcases min_choice w (shift.toNat + 7) with h | h <;> rw [h] <;> assumption
  rw [accumulate_eq, BitVec.toNat_or, BitVec.toNat_ofNat]
  refine Nat.or_lt_two_pow ?_ (lt_of_le_of_lt (Nat.mod_le _ _) hmin)
  exact lt_of_lt_of_le hr (Nat.pow_le_pow_right (by norm_num) (by omega))

theorem takeMore_keeps_decInv {s : State} (hs : DecInv s) (hb : s.dec.phase = .busy) {g : Group}
    (ho : groupOffends g s = false) : DecInv (takeMore g s) := by
  obtain ⟨hsh, -, hr⟩ := hs hb
  have hlt : s.dec.shift.toNat < width s.dec.wsel := ((offending_eq_false_iff _ _ _).1 ho).1
  have hlen : s.dec.cnt.toNat < maxLen (width s.dec.wsel) := (lt_maxLen_iff _ _).2 (by omega)
  have hcnt := cnt_succ_toNat hlen
  have hshift : (s.dec.shift + 7).toNat = s.dec.shift.toNat + 7 := by
    have := width_le s.dec.wsel
    exact BitVec.toNat_add_of_lt (show s.dec.shift.toNat + 7 < 2 ^ 7 by omega)
  intro _
  simp only [takeMore_dec, hcnt, hshift]
  exact ⟨by omega, hlen, accumulate_lt hr ho⟩

/-! ## Every turn -/

theorem portTurn_keeps_inv {s t : State} (hs : s.Inv) (h : portTurn s = .next t) : t.Inv := by
  obtain ⟨hse, hsd⟩ := hs
  rcases portTurn_cases s with ⟨-, e⟩ | ⟨r, -, -, -, e⟩ | ⟨r, -, -, e⟩ | ⟨r, -, -, e⟩ <;> rw [e] at h <;> cases h
  · exact ⟨hse, hsd⟩
  · exact ⟨acceptEnc_keeps_encInv _ _ hse, decInv_congr (acceptEnc_dec _ _ _) hsd⟩
  · exact ⟨encInv_congr (acceptDec_enc _ _ _) (acceptDec_sink _ _ _) hse, acceptDec_keeps_decInv _ _ hsd⟩

theorem encStep_keeps_inv {s : State} (hs : s.Inv) : (encStep s).Inv := by
  obtain ⟨hse, hsd⟩ := hs
  rcases encStep_cases s with ⟨-, e⟩ | ⟨hb, -, hm, e⟩ | ⟨-, -, -, e⟩ <;> rw [e]
  · exact ⟨hse, hsd⟩
  · exact ⟨emitMore_keeps_encInv hse hb hm, decInv_congr (emitMore_dec s) hsd⟩
  · exact ⟨encInv_of_idle rfl, decInv_congr (emitLast_dec s) hsd⟩

theorem decTurn_keeps_inv {s t : State} (hs : s.Inv) (h : decTurn s = .next t) : t.Inv := by
  obtain ⟨hse, hsd⟩ := hs
  rcases decTurn_cases s with ⟨-, e⟩ | ⟨-, -, e⟩ | ⟨b, -, -, -, e⟩ | ⟨b, hb, -, ho, -, e⟩ | ⟨b, -, -, -, -, e⟩ <;>
    rw [e] at h <;> cases h
  · exact ⟨hse, hsd⟩
  · exact ⟨encInv_congr (takeEnd_enc s) (takeEnd_sink s) hse, decInv_of_idle (takeEnd_dec_phase s)⟩
  · exact ⟨encInv_congr (takeOffending_enc s) (takeOffending_sink s) hse, decInv_of_idle (takeOffending_dec_phase s)⟩
  · exact ⟨encInv_congr (takeMore_enc s _) (takeMore_sink s _) hse, takeMore_keeps_decInv hsd hb ho⟩
  · exact ⟨encInv_congr (takeLast_enc s _) (takeLast_sink s _) hse, decInv_of_idle (takeLast_dec_phase s _)⟩

theorem hostAct_keeps_inv {a : HostAct} {s t : State} (hs : s.Inv) (h : hostAct a s = .next t) : t.Inv := by
  obtain ⟨hse, hsd⟩ := hs
  rcases hostAct_next h with ⟨r, -, -, rfl⟩ | ⟨-, ⟨-, rfl⟩ | ⟨r, -, -, rfl⟩⟩ | ⟨w, -, rfl⟩ | ⟨x, y, -, -, rfl⟩ |
    ⟨n, -, -, -, rfl⟩ | ⟨bytes, -, hi, rfl⟩ | ⟨b, -, rfl⟩ | ⟨-, rfl⟩
  case inr.inr.inr.inr.inr.inl => exact ⟨encInv_of_idle hi, hsd⟩
  case inr.inr.inr.inr.inr.inr.inr => exact ⟨encInv_of_idle rfl, decInv_of_idle rfl⟩
  all_goals exact ⟨hse, hsd⟩

theorem takeTurn_keeps_inv {u : Turn} {s t : State} (hs : s.Inv) (h : takeTurn u s = .next t) : t.Inv := by
  cases u with
  | accept => exact portTurn_keeps_inv hs h
  | enc =>
    cases h
    exact encStep_keeps_inv hs
  | dec => exact decTurn_keeps_inv hs h
  | host a => exact hostAct_keeps_inv hs h

/-- Settles O47: the invariants do not speak of the schedule, and every turn keeps them. -/
theorem stepKeepsTheInvariants : Obligations.StepKeepsTheInvariants := by
  intro s t hs h
  rcases step_cases s with ⟨-, e⟩ | ⟨u, ts, -, e⟩ <;> rw [e] at h
  · cases h
    exact hs
  · exact takeTurn_keeps_inv (s := { s with turns := ts }) hs h

/-- Settles O48: after reset both units are IDLE, and nothing is on the port or in the schedule. -/
theorem resetMeetsTheInvariants : Obligations.ResetMeetsTheInvariants :=
  ⟨⟨encInv_of_idle rfl, decInv_of_idle rfl⟩, rfl, rfl, rfl, rfl⟩

/-- Settles O49: `EncRegs.reset` and `DecRegs.reset` are R27's table. -/
theorem resetRegisterTable : Obligations.ResetRegisterTable :=
  ⟨rfl, rfl, rfl, rfl, rfl, rfl, rfl, rfl, rfl, rfl⟩

end Sys2Proof.Machine
end

section
/-! PROOF. The registers of an IDLE unit reach no output (10_state.md R25). `State.forgetIdle` clears them without changing anything that
can be observed, and a turn taken from the cleared state ends, up to IDLE registers, as the turn taken from the state itself. -/

namespace Sys2Proof.Machine

/-! ## What the port's and the decoder's turn do, case by case -/

theorem portTurn_none {s : State} (hp : s.port = none) : portTurn s = .next s := by simp [portTurn, hp]

theorem portTurn_encode {s : State} {r : Record} (hp : s.port = some r) (ho : opOf (cmdOf r) = false)
    (hs : strictOf (cmdOf r) = false) : portTurn s = .next (acceptEnc (wselOf (cmdOf r)) (operandOf r) s) := by
  simp [portTurn, hp, decodeRecord, ho, hs, exec_encInstr]

theorem portTurn_decode {s : State} {r : Record} (hp : s.port = some r) (ho : opOf (cmdOf r) = true) :
    portTurn s = .next (acceptDec (wselOf (cmdOf r)) (strictOf (cmdOf r)) s) := by
  cases hs : strictOf (cmdOf r) <;> simp [portTurn, hp, decodeRecord, ho, hs, exec_decInstr, exec_decsInstr]

theorem portTurn_reserved {s : State} {r : Record} (hp : s.port = some r) (hr : isReserved r = true) :
    portTurn s = .refused (.reservedCommand (cmdOf r)) := by
  obtain ⟨hs, ho⟩ : strictOf (cmdOf r) = true ∧ opOf (cmdOf r) = false := by simpa [isReserved] using hr
  simp [portTurn, hp, decodeRecord, ho, hs]

theorem decTurn_wait {s : State} (hk : srcPeek s = none) : decTurn s = .next s := by
  cases hp : s.dec.phase <;> simp [decTurn, hp, hk]

theorem decTurn_end {s : State} (hp : s.dec.phase = .busy) (hk : srcPeek s = some .eoi) :
    decTurn s = .next (takeEnd s) := by
  simp [decTurn, hp, hk]

theorem decTurn_offending {s : State} {b : Byte} (hp : s.dec.phase = .busy) (hk : srcPeek s = some (.byte b))
    (ho : groupOffends (groupOf b) s = true) : decTurn s = .next (takeOffending s) := by
  cases hc : contOf b <;> simp [decTurn, hp, hk, decodeByte, hc, exec, execContb, execLastb, ho]

theorem decTurn_more {s : State} {b : Byte} (hp : s.dec.phase = .busy) (hk : srcPeek s = some (.byte b))
    (ho : groupOffends (groupOf b) s = false) (hc : contOf b = true) : decTurn s = .next (takeMore (groupOf b) s) := by
  simp [decTurn, hp, hk, decodeByte, hc, exec, execContb, ho]

theorem decTurn_last {s : State} {b : Byte} (hp : s.dec.phase = .busy) (hk : srcPeek s = some (.byte b))
    (ho : groupOffends (groupOf b) s = false) (hc : contOf b = false) : decTurn s = .next (takeLast (groupOf b) s) := by
  simp [decTurn, hp, hk, decodeByte, hc, exec, execLastb, ho]

/-! ## A unit's turn ignores the other unit's registers (70_reset_and_hazards.md R135) -/

theorem encStep_set_dec (d : DecRegs) (s : State) : encStep { s with dec := d } = { encStep s with dec := d } := by
  rcases encStep_cases s with ⟨hi | hn, e⟩ | ⟨hp, hr, hx, e⟩ | ⟨hp, hr, hx, e⟩ <;> rw [e]
  · exact encStep_idle hi
  · exact encStep_not_ready hn
  · exact encStep_more hp hr hx
  · exact encStep_last hp hr hx

@[simp] theorem encStep_dec (s : State) : (encStep s).dec = s.dec := by
  rcases encStep_cases s with ⟨-, e⟩ | ⟨-, -, -, e⟩ | ⟨-, -, -, e⟩ <;> simp [e]

theorem takeLast_set_enc (c : EncRegs) (g : Group) (s : State) :
    takeLast g { s with enc := c } = { takeLast g s with enc := c } := by
  cases hp : padded s.dec.strict g (s.dec.cnt + 1) <;> simp only [takeLast, hp] <;> rfl

theorem decTurn_set_enc (c : EncRegs) (s : State) :
    ∃ t, decTurn s = .next t ∧ t.enc = s.enc ∧ decTurn { s with enc := c } = .next { t with enc := c } := by
  rcases decTurn_cases s with ⟨hi | hk, e⟩ | ⟨hp, hk, e⟩ | ⟨b, hp, hk, ho, e⟩ | ⟨b, hp, hk, ho, hc, e⟩ |
    ⟨b, hp, hk, ho, hc, e⟩
  · exact ⟨s, e, rfl, decTurn_idle hi⟩
  · exact ⟨s, e, rfl, decTurn_wait hk⟩
  · exact ⟨_, e, takeEnd_enc s, decTurn_end hp hk⟩
  · exact ⟨_, e, takeOffending_enc s, decTurn_offending hp hk ho⟩
  · exact ⟨_, e, takeMore_enc s _, decTurn_more hp hk ho hc⟩
  · exact ⟨_, e, takeLast_enc s _, by rw [← takeLast_set_enc]; exact decTurn_last hp hk ho hc⟩

/-! ## Clearing the registers of an IDLE unit -/

/-- The encoder's part of `State.forgetIdle`. -/
def EncRegs.forget (e : EncRegs) : EncRegs :=
  match e.phase with
  | .idle => EncRegs.reset
  | .busy => e

/-- The decoder's part of `State.forgetIdle`. -/
def DecRegs.forget (d : DecRegs) : DecRegs :=
  match d.phase with
  | .idle => DecRegs.reset
  | .busy => d

theorem EncRegs.forget_of_idle {e : EncRegs} (h : e.phase = .idle) : e.forget = EncRegs.reset := by simp [forget, h]

theorem EncRegs.forget_of_busy {e : EncRegs} (h : e.phase = .busy) : e.forget = e := by simp [forget, h]

theorem DecRegs.forget_of_idle {d : DecRegs} (h : d.phase = .idle) : d.forget = DecRegs.reset := by simp [forget, h]

theorem DecRegs.forget_of_busy {d : DecRegs} (h : d.phase = .busy) : d.forget = d := by simp [forget, h]

@[simp] theorem EncRegs.forget_phase (e : EncRegs) : e.forget.phase = e.phase := by
  cases h : e.phase with
  | idle => rw [forget_of_idle h]; rfl
  | busy => rw [forget_of_busy h, h]

@[simp] theorem DecRegs.forget_phase (d : DecRegs) : d.forget.phase = d.phase := by
  cases h : d.phase with
  | idle => rw [forget_of_idle h]; rfl
  | busy => rw [forget_of_busy h, h]

@[simp] theorem EncRegs.forget_forget (e : EncRegs) : e.forget.forget = e.forget := by
  cases h : e.phase with
  | idle => rw [forget_of_idle h]; rfl
  | busy => rw [forget_of_busy h, forget_of_busy h]

@[simp] theorem DecRegs.forget_forget (d : DecRegs) : d.forget.forget = d.forget := by
  cases h : d.phase with
  | idle => rw [forget_of_idle h]; rfl
  | busy => rw [forget_of_busy h, forget_of_busy h]

theorem State.forgetIdle_eq (s : State) : s.forgetIdle = { s with enc := s.enc.forget, dec := s.dec.forget } := rfl

@[simp] theorem State.forgetIdle_enc_phase (s : State) : s.forgetIdle.enc.phase = s.enc.phase := EncRegs.forget_phase s.enc

@[simp] theorem State.forgetIdle_dec_phase (s : State) : s.forgetIdle.dec.phase = s.dec.phase := DecRegs.forget_phase s.dec

@[simp] theorem State.forgetIdle_port (s : State) : s.forgetIdle.port = s.port := rfl

@[simp] theorem State.forgetIdle_forgetIdle (s : State) : s.forgetIdle.forgetIdle = s.forgetIdle := by
  simp [State.forgetIdle_eq]

/-- Nothing observable is cleared (00_scope.md R9). -/
@[simp] theorem State.forgetIdle_observe (s : State) : s.forgetIdle.observe = s.observe := rfl

/-! ## A turn taken from the cleared state -/

theorem acceptEnc_forgetIdle (w : BitVec 2) (v : Operand) (s : State) :
    (acceptEnc w v s.forgetIdle).forgetIdle = (acceptEnc w v s).forgetIdle := by
  cases hp : s.enc.phase with
  | idle => rw [acceptEnc_idle hp, acceptEnc_idle (by simpa using hp)]; simp [State.forgetIdle_eq]
  | busy => rw [acceptEnc_busy hp, acceptEnc_busy (by simpa using hp), State.forgetIdle_forgetIdle]

theorem acceptDec_forgetIdle (w : BitVec 2) (st : Bool) (s : State) :
    (acceptDec w st s.forgetIdle).forgetIdle = (acceptDec w st s).forgetIdle := by
  cases hp : s.dec.phase with
  | idle => rw [acceptDec_idle hp, acceptDec_idle (by simpa using hp)]; simp [State.forgetIdle_eq]
  | busy => rw [acceptDec_busy hp, acceptDec_busy (by simpa using hp), State.forgetIdle_forgetIdle]

theorem encStep_forgetIdle (s : State) : (encStep s.forgetIdle).forgetIdle = (encStep s).forgetIdle := by
  cases hp : s.enc.phase with
  | idle => rw [encStep_idle hp, encStep_idle (by simpa using hp), State.forgetIdle_forgetIdle]
  | busy =>
    have hs : s.forgetIdle = { s with dec := s.dec.forget } := by
      rw [State.forgetIdle_eq, EncRegs.forget_of_busy hp]
    rw [hs, encStep_set_dec]
    simp [State.forgetIdle_eq]

/-- An outcome up to the registers of IDLE units. -/
def forgetNext (o : Host.Outcome State Fault Refusal) : Host.Outcome State Fault Refusal :=
  andThen o fun t => .next t.forgetIdle

@[simp] theorem forgetNext_next (t : State) : forgetNext (.next t) = .next t.forgetIdle := rfl

@[simp] theorem forgetNext_refused (r : Refusal) : forgetNext (.refused r) = .refused r := rfl

theorem portTurn_forgetIdle (s : State) : forgetNext (portTurn s.forgetIdle) = forgetNext (portTurn s) := by
  rcases portTurn_cases s with ⟨hp, e⟩ | ⟨r, hp, ho, hs, e⟩ | ⟨r, hp, ho, e⟩ | ⟨r, hp, hr, e⟩ <;> rw [e]
  · rw [portTurn_none (by exact hp)]; simp
  · rw [portTurn_encode (by exact hp) ho hs]; simp [acceptEnc_forgetIdle]
  · rw [portTurn_decode (by exact hp) ho]; simp [acceptDec_forgetIdle]
  · rw [portTurn_reserved (by exact hp) hr]

theorem decTurn_forgetIdle (s : State) : forgetNext (decTurn s.forgetIdle) = forgetNext (decTurn s) := by
  cases hp : s.dec.phase with
  | idle => rw [decTurn_idle hp, decTurn_idle (by simpa using hp)]; simp
  | busy =>
    have hs : s.forgetIdle = { s with enc := s.enc.forget } := by
      rw [State.forgetIdle_eq, DecRegs.forget_of_busy hp]
    obtain ⟨t, e, he, ec⟩ := decTurn_set_enc s.enc.forget s
    rw [hs, e, ec]
    simp [State.forgetIdle_eq, he]

theorem hostAct_forgetIdle (a : HostAct) (s : State) :
    forgetNext (hostAct a s.forgetIdle) = forgetNext (hostAct a s) := by
  cases a with
  | offer r => cases hp : s.port <;> simp [hostAct, hp, State.forgetIdle_eq]
  | withdraw =>
    cases hp : s.port with
    | none => simp [hostAct, hp]
    | some r => cases hr : isReserved r <;> simp [hostAct, hp, hr, State.forgetIdle_eq]
  | replaceSource syms e => cases hd : s.dec.phase <;> simp [hostAct, hd, State.forgetIdle_eq]
  | presentSink n =>
    cases he : s.enc.phase <;> cases hd : s.dec.phase <;> simp [hostAct, he, hd, State.forgetIdle_eq]
  | replaceSink bytes => cases he : s.enc.phase <;> simp [hostAct, he, State.forgetIdle_eq]
  | offerSymbol w => simp [hostAct, State.forgetIdle_eq]
  | setSinkReady b => simp [hostAct, State.forgetIdle_eq]
  | reset => rfl

theorem takeTurn_forgetIdle (u : Turn) (s : State) :
    forgetNext (takeTurn u s.forgetIdle) = forgetNext (takeTurn u s) := by
  cases u with
  | accept => exact portTurn_forgetIdle s
  | enc => simp [encStep_forgetIdle]
  | dec => exact decTurn_forgetIdle s
  | host a => exact hostAct_forgetIdle a s

theorem step_forgetIdle (s : State) : forgetNext (step s.forgetIdle) = forgetNext (step s) := by
  rcases step_cases s with ⟨hn, e⟩ | ⟨u, ts, hu, e⟩ <;> rw [e]
  · rw [step_of_no_turn (by exact hn)]; simp
  · rw [step_of_turn (by exact hu)]
    exact takeTurn_forgetIdle u { s with turns := ts }

/-- Settles O54: both steps agree, up to IDLE registers, with the step from the one state both clear to. -/
theorem idleRegistersReachNoOutput : Obligations.IdleRegistersReachNoOutput := by
  intro s t h
  have hst : forgetNext (step s) = forgetNext (step t) := by
    rw [← step_forgetIdle s, h, step_forgetIdle t]
  revert hst
  generalize step s = o, step t = o'
  intro hst
  cases o with
  | fault f => cases f
  | refused a =>
    cases o' with
    | fault f => cases f
    | refused b => simpa using hst
    | next t' => simp at hst
  | next s' =>
    cases o' with
    | fault f => cases f
    | refused b => simp at hst
    | next t' =>
      have hf : s'.forgetIdle = t'.forgetIdle := by simpa using hst
      exact ⟨hf, by rw [← s'.forgetIdle_observe, hf, t'.forgetIdle_observe]⟩

end Sys2Proof.Machine
end

section
/-! PROOF. The frames of the fourteen instructions (10_state.md R10, 20_memory.md R32): a command is an accept at its own unit, a byte is
one step of the decoder, and the lemmas of State say what each of these leaves unchanged. -/

namespace Sys2Proof.Machine

/-! ## The commands (40_encoder.md R70, 41_decoder.md R90) -/

/-- The encode commands with an operand (30_encoding.md R56). -/
def encodeCommands (v : Operand) : List Instr := [.enc8 v, .enc16 v, .enc32 v, .enc64 v]

/-- The decode commands (30_encoding.md R56). -/
def decodeCommands : List Instr := [.dec8, .dec16, .dec32, .dec64, .decs8, .decs16, .decs32, .decs64]

theorem exec_encode_command {v : Operand} {i : Instr} (hi : i ∈ encodeCommands v) (s : State) :
    ∃ w, exec i s = .next (acceptEnc w v s) := by
  simp only [encodeCommands, List.mem_cons, List.not_mem_nil, or_false] at hi
  rcases hi with rfl | rfl | rfl | rfl <;> exact ⟨_, rfl⟩

theorem exec_decode_command {i : Instr} (hi : i ∈ decodeCommands) (s : State) :
    ∃ w st, exec i s = .next (acceptDec w st s) := by
  simp only [decodeCommands, List.mem_cons, List.not_mem_nil, or_false] at hi
  rcases hi with rfl | rfl | rfl | rfl | rfl | rfl | rfl | rfl <;> exact ⟨_, _, rfl⟩

theorem acceptEnc_port_cases (w : BitVec 2) (v : Operand) (s : State) :
    (acceptEnc w v s).port = s.port ∨ (acceptEnc w v s).port = none := by
  rcases acceptEnc_cases w v s with ⟨-, e⟩ | ⟨-, e⟩ <;> simp [e]

theorem acceptDec_port_cases (w : BitVec 2) (st : Bool) (s : State) :
    (acceptDec w st s).port = s.port ∨ (acceptDec w st s).port = none := by
  rcases acceptDec_cases w st s with ⟨-, e⟩ | ⟨-, e⟩ <;> simp [e]

theorem encode_command_dec {v : Operand} {i : Instr} {s t : State} (h : exec i s = .next t)
    (hi : i ∈ encodeCommands v) : t.dec = s.dec := by
  obtain ⟨w, e⟩ := exec_encode_command hi s
  cases e.symm.trans h
  exact acceptEnc_dec s w v

theorem decode_command_enc {i : Instr} {s t : State} (h : exec i s = .next t)
    (hi : i ∈ decodeCommands) : t.enc = s.enc := by
  obtain ⟨w, st, e⟩ := exec_decode_command hi s
  cases e.symm.trans h
  exact acceptDec_enc s w st

/-- Settles O16: a command is an encoder or a decoder accept, which keeps everything but the unit's registers and the port. -/
theorem commandsChangeTheirUnitOnly : Obligations.CommandsChangeTheirUnitOnly := by
  intro s t v i hi h
  have hdec := encode_command_dec (v := v) h
  have henc := decode_command_enc h
  rcases List.mem_append (s := encodeCommands v) (t := decodeCommands).1 hi with hi | hi
  · obtain ⟨w, e⟩ := exec_encode_command hi s
    cases e.symm.trans h
    exact ⟨acceptEnc_sink .., acceptEnc_sinkReady .., acceptEnc_source .., acceptEnc_sourceEnded .., acceptEnc_encOut ..,
      acceptEnc_decOut .., acceptEnc_turns .., acceptEnc_draws .., hdec, henc, acceptEnc_port_cases ..⟩
  · obtain ⟨w, st, e⟩ := exec_decode_command hi s
    cases e.symm.trans h
    exact ⟨acceptDec_sink .., acceptDec_sinkReady .., acceptDec_source .., acceptDec_sourceEnded .., acceptDec_encOut ..,
      acceptDec_decOut .., acceptDec_turns .., acceptDec_draws .., hdec, henc, acceptDec_port_cases ..⟩

/-! ## The two byte classes (41_decoder.md R91) -/

/-- A byte instruction leaves an IDLE decoder alone, and is one of three steps of a BUSY one. -/
theorem exec_byte_next {g : Group} {i : Instr} (hi : i = .contb g ∨ i = .lastb g) {s t : State} (h : exec i s = .next t) :
    (s.dec.phase = .idle ∧ t = s)
    ∨ (s.dec.phase = .busy ∧ (t = takeOffending s ∨ t = takeMore g s ∨ t = takeLast g s)) := by
  rcases hi with rfl | rfl
  · rcases exec_contb_cases g s with ⟨hp, e⟩ | ⟨hp, -, e⟩ | ⟨hp, -, e⟩ <;> cases e.symm.trans h <;> simp [hp]
  · rcases exec_lastb_cases g s with ⟨hp, e⟩ | ⟨hp, -, e⟩ | ⟨hp, -, e⟩ <;> cases e.symm.trans h <;> simp [hp]

/-- Settles O32: whichever step a byte takes, it keeps everything but DEC's registers, the source and DEC's responses. -/
theorem bytesChangeTheDecoderOnly : Obligations.BytesChangeTheDecoderOnly := by
  intro s t g i hi h
  rcases exec_byte_next hi h with ⟨hp, rfl⟩ | ⟨hp, rfl | rfl | rfl⟩ <;> simp [hp]

end Sys2Proof.Machine
end

section
/-! PROOF. What a decode reads (42_laws.md R121, 20_memory.md R41, R106): `go` on a byte either stops, whatever follows, with the
bytes up to this one taken, or goes on to the next index, which it does below MAXLEN(W) only. -/

namespace Sys2Proof.Machine

/-- `go` stops on a byte or goes on past it, whatever follows the byte; it goes on from an index below MAXLEN(W) only. -/
theorem decodeGo_cons_cases (w : Nat) (st : Bool) (b : Byte) (i acc : Nat) :
    (∃ R : DecodeResult, R.count = i + 1 ∧ R.symbolsTaken = i + 1 ∧ ∀ rest, decodeGo w st (b :: rest) i acc = R)
    ∨ (i < maxLen w ∧ ∃ acc', ∀ rest, decodeGo w st (b :: rest) i acc = decodeGo w st rest (i + 1) acc') := by
  cases ho : offending w (7 * i) (groupOf b) with
  | true => exact .inl ⟨_, rfl, rfl, fun rest => decodeGo_offending ho st rest acc⟩
  | false =>
    cases hc : contOf b with
    | true =>
      exact .inr ⟨(lt_maxLen_iff w i).2 ((offending_eq_false_iff _ _ _).1 ho).1, _, fun rest => decodeGo_more ho hc st rest acc⟩
    | false =>
      refine .inl ⟨_, ?_, ?_, fun rest => decodeGo_last ho hc st rest acc⟩ <;> split <;> rfl

/-- An end of input is reported at the end of the bytes, and every other outcome has taken as many symbols as it counts. -/
theorem decodeGo_end_or_symbolsTaken (w : Nat) (st : Bool) (bytes : List Byte) (i acc : Nat) :
    decodeGo w st bytes i acc = .error .unexpectedEndOfInput (i + bytes.length)
    ∨ (decodeGo w st bytes i acc).symbolsTaken = (decodeGo w st bytes i acc).count := by
  induction bytes generalizing i acc with
  | nil => exact .inl rfl
  | cons b rest ih =>
    rcases decodeGo_cons_cases w st b i acc with ⟨R, hc, ht, hR⟩ | ⟨-, acc', hR⟩ <;> rw [hR]
    · exact .inr (ht.trans hc.symm)
    · rw [List.length_cons, Nat.add_comm rest.length, ← Nat.add_assoc]
      exact ih (i + 1) acc'

theorem le_decodeGo_count (w : Nat) (st : Bool) (bytes : List Byte) (i acc : Nat) :
    i ≤ (decodeGo w st bytes i acc).count := by
  induction bytes generalizing i acc with
  | nil => exact Nat.le_refl i
  | cons b rest ih =>
    rcases decodeGo_cons_cases w st b i acc with ⟨R, hc, -, hR⟩ | ⟨-, acc', hR⟩ <;> rw [hR]
    · omega
    · exact (Nat.le_succ i).trans (ih (i + 1) acc')

theorem lt_decodeGo_symbolsTaken (w : Nat) (st : Bool) (bytes : List Byte) (i acc : Nat) :
    i < (decodeGo w st bytes i acc).symbolsTaken := by
  induction bytes generalizing i acc with
  | nil => exact Nat.lt_succ_self i
  | cons b rest ih =>
    rcases decodeGo_cons_cases w st b i acc with ⟨R, -, ht, hR⟩ | ⟨-, acc', hR⟩ <;> rw [hR]
    · omega
    · exact (Nat.lt_succ_self i).trans (ih (i + 1) acc')

/-- From an index in range `go` sees the bytes up to index MAXLEN(W) only. -/
theorem decodeGo_take (w : Nat) (st : Bool) (bytes : List Byte) (i acc n : Nat) (hi : i ≤ maxLen w) (hn : maxRead w ≤ i + n) :
    decodeGo w st (bytes.take n) i acc = decodeGo w st bytes i acc := by
  induction bytes generalizing i acc n with
  | nil => rw [List.take_nil]
  | cons b rest ih =>
    obtain ⟨k, rfl⟩ : ∃ k, n = k + 1 := ⟨n - 1, by unfold maxRead at hn; omega⟩
    rw [List.take_succ_cons]
    rcases decodeGo_cons_cases w st b i acc with ⟨R, -, -, hR⟩ | ⟨hlt, acc', hR⟩ <;> rw [hR, hR]
    exact ih (i + 1) acc' k hlt (by omega)

/-- Bytes after the ones counted play no part, unless `go` met the end of its input. -/
theorem decodeGo_take_count_append (w : Nat) (st : Bool) (bytes bytes' : List Byte) (i acc : Nat)
    (h : decodeGo w st bytes i acc ≠ .error .unexpectedEndOfInput (i + bytes.length)) :
    decodeGo w st (bytes.take ((decodeGo w st bytes i acc).count - i) ++ bytes') i acc = decodeGo w st bytes i acc := by
  induction bytes generalizing i acc with
  | nil => exact absurd rfl h
  | cons b rest ih =>
    rcases decodeGo_cons_cases w st b i acc with ⟨R, hc, -, hR⟩ | ⟨-, acc', hR⟩
    · rw [hR, hc, Nat.add_sub_cancel_left, List.take_succ_cons, List.cons_append, hR]
    · rw [hR] at h ⊢
      have hle := le_decodeGo_count w st rest (i + 1) acc'
      have hcount : (decodeGo w st rest (i + 1) acc').count - i = (decodeGo w st rest (i + 1) acc').count - (i + 1) + 1 := by omega
      rw [hcount, List.take_succ_cons, List.cons_append, hR]
      refine ih (i + 1) acc' ?_
      rwa [List.length_cons, Nat.add_comm rest.length, ← Nat.add_assoc] at h

theorem decodeW_take {w n : Nat} (hn : maxRead w ≤ n) (st : Bool) (bytes : List Byte) :
    decodeW w (bytes.take n) st = decodeW w bytes st :=
  decodeGo_take w st bytes 0 0 n (Nat.zero_le _) (by omega)

/-- Settles O45: `go` sees MAXREAD(W) bytes at most, and stops at the byte it counts last. -/
theorem decodeDependsOnItsFirstBytes : Obligations.DecodeDependsOnItsFirstBytes := by
  intro w bytes bytes' st _
  constructor
  · intro h
    rw [← decodeW_take (Nat.le_refl _) st bytes, h, decodeW_take (Nat.le_refl _) st bytes']
  · intro h
    exact decodeGo_take_count_append w st bytes bytes' 0 0 (by rwa [Nat.zero_add])

end Sys2Proof.Machine
end

section
/-! PROOF. A decode command runs to its response (42_laws.md R121, R136). The BUSY decoder's registers after `i` bytes are those `go` has at
index `i` (`decAfter`). On the decoder's turn the machine and `go` stop together or go on together, and no other turn touches a BUSY
decoder; so an induction over the schedule carries the one along the other. On a buffer no turn of the schedule is refused, and an IDLE
decoder is not disturbed by what is left of it. -/

namespace Sys2Proof.Machine

/-! ## Runs -/

theorem runSteps_add {m n : Nat} {s u : State} (h : runSteps m s = .next u) : runSteps (m + n) s = runSteps n u := by
  induction m generalizing s with
  | zero => cases h; rw [Nat.zero_add]
  | succ m ih =>
    rw [Nat.succ_add, runSteps_succ]
    rw [runSteps_succ] at h
    cases hs : step s with
    | next v => rw [hs] at h; exact ih h
    | fault f => cases f
    | refused r => rw [hs] at h; cases h

/-- A run of at least one step that is not refused: its first turn answers a state, and the rest is a run from there. -/
theorem runSteps_succ_next {n : Nat} {u : Turn} {us : List Turn} {s t : State} (hu : s.turns = u :: us)
    (h : runSteps (n + 1) s = .next t) :
    ∃ v, takeTurn u { s with turns := us } = .next v ∧ step s = .next v ∧ runSteps n v = .next t := by
  rw [runSteps_succ, step_of_turn hu] at h
  rw [step_of_turn hu]
  cases hv : takeTurn u { s with turns := us } with
  | next v => rw [hv] at h; exact ⟨v, rfl, rfl, h⟩
  | fault f => cases f
  | refused r => rw [hv] at h; cases h

/-! ## The decoder's registers along `go` -/

/-- The registers of a BUSY decoder that has taken `i` bytes and accumulated `acc` (41_decoder.md R91). -/
def decAfter (w : BitVec 2) (st : Bool) (i acc : Nat) : DecRegs :=
  { phase := .busy, wsel := w, strict := st, result := BitVec.ofNat 64 acc, shift := BitVec.ofNat 7 (7 * i), cnt := BitVec.ofNat 4 i }

theorem decStart_eq_decAfter (w : BitVec 2) (st : Bool) : decStart w st = decAfter w st 0 0 := rfl

section
variable {s : State} {w : BitVec 2} {st : Bool} {i acc : Nat}

theorem decAfter_shift_toNat (hd : s.dec = decAfter w st i acc) (hi : i ≤ maxLen (width w)) : s.dec.shift.toNat = 7 * i := by
  have := maxLen_width_le w
  rw [hd, decAfter, BitVec.toNat_ofNat, Nat.mod_eq_of_lt (by omega)]

theorem groupOffends_decAfter (hd : s.dec = decAfter w st i acc) (hi : i ≤ maxLen (width w)) (g : Group) :
    groupOffends g s = offending (width w) (7 * i) g := by
  rw [groupOffends, decAfter_shift_toNat hd hi, hd]
  rfl

theorem accumulate_decAfter (hd : s.dec = decAfter w st i acc) (hi : i ≤ maxLen (width w)) (g : Group) :
    accumulate s.dec.result s.dec.shift g = BitVec.ofNat 64 (acc ||| (g.toNat * 2 ^ (7 * i))) := by
  rw [accumulate_eq, decAfter_shift_toNat hd hi, hd, BitVec.ofNat_or]
  rfl

theorem cnt_succ_decAfter (hd : s.dec = decAfter w st i acc) : s.dec.cnt + 1 = BitVec.ofNat 4 (i + 1) := by
  rw [hd, BitVec.ofNat_add]
  rfl

theorem takeMore_decAfter (hd : s.dec = decAfter w st i acc) (hi : i ≤ maxLen (width w)) (g : Group) :
    (takeMore g s).dec = decAfter w st (i + 1) (acc ||| (g.toNat * 2 ^ (7 * i))) := by
  have hs : s.dec.shift + 7 = BitVec.ofNat 7 (7 * (i + 1)) := by rw [hd, Nat.mul_add, BitVec.ofNat_add]; rfl
  rw [takeMore_dec, accumulate_decAfter hd hi, cnt_succ_decAfter hd, hs, hd]
  rfl

/-- The response to a terminating byte is the outcome of `go` on it. -/
theorem lastResponse_decAfter (hd : s.dec = decAfter w st i acc) (hi : i ≤ maxLen (width w)) {b : Byte}
    (ho : offending (width w) (7 * i) (groupOf b) = false) (hc : contOf b = false) (rest : List Byte) :
    lastResponse (groupOf b) s = (decodeGo (width w) st (b :: rest) i acc).response := by
  have hn : (BitVec.ofNat 4 (i + 1)).toNat = i + 1 := by
    have := maxLen_width_le w
    rw [BitVec.toNat_ofNat, Nat.mod_eq_of_lt (by omega)]
  have hp : padded s.dec.strict (groupOf b) (s.dec.cnt + 1) = true ↔ st = true ∧ (groupOf b).toNat = 0 ∧ 1 ≤ i := by
    rw [cnt_succ_decAfter hd, hd, padded_iff, hn, ← BitVec.toNat_inj]
    exact and_congr_right fun _ => and_congr_right fun _ => ⟨fun h => by omega, fun h => by omega⟩
  rw [decodeGo_last ho hc, lastResponse, if_congr hp rfl rfl, accumulate_decAfter hd hi, cnt_succ_decAfter hd]
  split <;> rfl

/-- The decoder's turn on a byte: decoder and `go` stop together with one outcome, or go on together. -/
theorem decTurn_follows_decodeGo {b : Byte} (hd : s.dec = decAfter w st i acc) (hi : i ≤ maxLen (width w))
    (hk : srcPeek s = some (.byte b)) :
    (∃ R t, (∀ bytes, decodeGo (width w) st (b :: bytes) i acc = R) ∧ R.symbolsTaken = i + 1 ∧ decTurn s = .next t
      ∧ t.decOut = s.decOut ++ [R.response] ∧ t.source = s.source.tail ∧ t.dec.phase = .idle)
    ∨ (∃ acc' t, (∀ bytes, decodeGo (width w) st (b :: bytes) i acc = decodeGo (width w) st bytes (i + 1) acc')
      ∧ i < maxLen (width w) ∧ decTurn s = .next t ∧ t.dec = decAfter w st (i + 1) acc' ∧ t.decOut = s.decOut
      ∧ t.source = s.source.tail ∧ t.sourceEnded = s.sourceEnded ∧ t.turns = s.turns) := by
  have hb : s.dec.phase = .busy := by rw [hd]; rfl
  have hoff := groupOffends_decAfter hd hi (groupOf b)
  cases ho : offending (width w) (7 * i) (groupOf b) with
  | true =>
    refine .inl ⟨_, _, fun bytes => decodeGo_offending ho st bytes acc, rfl, decTurn_offending hb hk (hoff.trans ho), ?_,
      takeOffending_source s, rfl⟩
    rw [takeOffending_decOut, cnt_succ_decAfter hd]
    rfl
  | false =>
    cases hc : contOf b with
    | true =>
      have hlt := (lt_maxLen_iff _ i).2 ((offending_eq_false_iff _ _ _).1 ho).1
      exact .inr ⟨_, _, fun bytes => decodeGo_more ho hc st bytes acc, hlt, decTurn_more hb hk (hoff.trans ho) hc,
        takeMore_decAfter hd hi _, takeMore_decOut .., takeMore_source .., takeMore_sourceEnded ..,
        takeMore_turns ..⟩
    | false =>
      have hR := fun bytes => (decodeGo_last ho hc st bytes acc).trans (decodeGo_last ho hc st [] acc).symm
      refine .inl ⟨_, _, hR, ?_, decTurn_last hb hk (hoff.trans ho) hc, ?_, takeLast_source .., takeLast_dec_phase ..⟩
      · rw [decodeGo_last ho hc]; split <;> rfl
      · rw [takeLast_decOut, lastResponse_decAfter hd hi ho hc []]

end

/-! ## A running decode along a schedule -/

theorem srcPeek_eq_none_iff (s : State) : srcPeek s = none ↔ s.source = [] ∧ s.sourceEnded = false := by
  cases hs : s.source with
  | nil => rw [srcPeek_nil hs]; cases s.sourceEnded <;> simp
  | cons sym rest => simp [srcPeek_cons hs]

theorem symbolsFound_dec_none {s : State} (hk : srcPeek s = none) (ts : List Turn) :
    symbolsFound s.sourceEnded s.source (.dec :: ts) = symbolsFound s.sourceEnded s.source ts := by
  obtain ⟨hs, he⟩ := (srcPeek_eq_none_iff s).1 hk
  rw [hs, he, symbolsFound_dec_wait]

theorem symbolsFound_dec_some {s : State} {sym : Symbol} (hk : srcPeek s = some sym) (ts : List Turn) :
    symbolsFound s.sourceEnded s.source (.dec :: ts) = sym :: symbolsFound s.sourceEnded s.source.tail ts := by
  cases hs : s.source with
  | nil =>
    cases he : s.sourceEnded with
    | false => rw [(srcPeek_eq_none_iff s).2 ⟨hs, he⟩] at hk; cases hk
    | true => rw [srcPeek_nil hs, he] at hk; cases hk; rfl
  | cons front rest => rw [srcPeek_cons hs] at hk; cases hk; rfl

theorem source_of_srcPeek_byte {s : State} {b : Byte} (hk : srcPeek s = some (.byte b)) :
    s.source = .byte b :: s.source.tail := by
  cases hs : s.source with
  | nil => rw [srcPeek_nil hs] at hk; split at hk <;> cases hk
  | cons front rest => rw [srcPeek_cons hs] at hk; cases hk; rfl

/-- After some of the turns `ts` the decoder has answered `R`, having started with `i` symbols taken. -/
def DecodeEnds (R : DecodeResult) (i : Nat) (ts : List Turn) (s : State) : Prop :=
  ∃ m u, m ≤ ts.length ∧ runSteps m s = .next u ∧ u.decOut = s.decOut ++ [R.response]
    ∧ u.source = (s.source ++ (ts.take m).filterMap Turn.handed).drop (R.symbolsTaken - i) ∧ u.dec.phase = .idle

/-- The decoder's turn that answers. -/
theorem DecodeEnds.of_response {R : DecodeResult} {i : Nat} {ts : List Turn} {s t : State} (h : step s = .next t)
    (ht : R.symbolsTaken = i + 1) (ho : t.decOut = s.decOut ++ [R.response]) (hs : t.source = s.source.tail)
    (hp : t.dec.phase = .idle) : DecodeEnds R i (.dec :: ts) s :=
  ⟨1, t, Nat.succ_le_succ (Nat.zero_le _), runSteps_succ_of_step h, ho, by simp [hs, ht, List.filterMap_cons], hp⟩

/-- The decoder's turn that takes a byte and goes on. -/
theorem DecodeEnds.of_byte_taken {R : DecodeResult} {i : Nat} {ts : List Turn} {s t : State} {b : Byte} (h : step s = .next t)
    (hk : srcPeek s = some (.byte b)) (hs : t.source = s.source.tail) (ht : i < R.symbolsTaken) (ho : t.decOut = s.decOut)
    (he : DecodeEnds R (i + 1) ts t) : DecodeEnds R i (.dec :: ts) s := by
  obtain ⟨m, u, hm, hr, hu, hsrc, hp⟩ := he
  refine ⟨m + 1, u, Nat.succ_le_succ hm, (runSteps_succ_of_step h).trans hr, by rw [hu, ho], ?_, hp⟩
  rw [hsrc, source_of_srcPeek_byte hk, hs, show R.symbolsTaken - i = R.symbolsTaken - (i + 1) + 1 by omega]
  simp [List.filterMap_cons]

/-- A turn that leaves the decoder alone, or finds no symbol for it. -/
theorem DecodeEnds.of_other_turn {R : DecodeResult} {i : Nat} {u : Turn} {ts : List Turn} {s t : State} (h : step s = .next t)
    (hs : t.source = s.source ++ u.handed.toList) (ho : t.decOut = s.decOut) (he : DecodeEnds R i ts t) :
    DecodeEnds R i (u :: ts) s := by
  obtain ⟨m, v, hm, hr, hv, hsrc, hp⟩ := he
  refine ⟨m + 1, v, Nat.succ_le_succ hm, (runSteps_succ_of_step h).trans hr, by rw [hv, ho], ?_, hp⟩
  rw [hsrc, hs]
  cases hu : u.handed <;> simp [hu]

/-- Any schedule without reset that finds the decoder enough symbols brings a running decode to the outcome of `go`. -/
theorem busy_decode_ends {w : BitVec 2} {st : Bool} {rest : List Turn} (ts : List Turn) {s t : State} {i acc : Nat}
    (hd : s.dec = decAfter w st i acc) (hi : i ≤ maxLen (width w)) (hts : s.turns = ts ++ rest) (hr : .host .reset ∉ ts)
    (hn : maxRead (width w) ≤ i + (symbolsFound s.sourceEnded s.source ts).length) (h : runSteps ts.length s = .next t) :
    DecodeEnds (decodeGo (width w) st (bytesBeforeEnd (symbolsFound s.sourceEnded s.source ts)) i acc) i ts s := by
  induction ts generalizing s i acc with
  | nil => simp only [symbolsFound, List.length_nil, maxRead] at hn; omega
  | cons u ts ih =>
    obtain ⟨v, hv, hstep, hrun⟩ := runSteps_succ_next hts h
    have hb : s.dec.phase = .busy := by rw [hd]; rfl
    have hr' : .host .reset ∉ ts := fun hm => hr (List.mem_cons_of_mem u hm)
    by_cases hu : u = .dec
    · subst hu
      rw [takeTurn_dec] at hv
      cases hk : srcPeek s with
      | none =>
        rw [decTurn_wait (by exact hk)] at hv
        cases hv
        rw [symbolsFound_dec_none hk] at hn ⊢
        exact (ih (s := { s with turns := ts ++ rest }) hd hi rfl hr' hn hrun).of_other_turn hstep (List.append_nil _).symm rfl
      | some sym =>
        rw [symbolsFound_dec_some hk] at hn ⊢
        cases sym with
        | eoi =>
          rw [decTurn_end (by exact hb) (by exact hk)] at hv
          cases hv
          refine .of_response hstep rfl ?_ rfl rfl
          rw [takeEnd_decOut, hd]
          rfl
        | byte b =>
          rw [bytesBeforeEnd]
          rcases decTurn_follows_decodeGo (s := { s with turns := ts ++ rest }) hd hi hk with
            ⟨R, t', hR, ht, ht', ho, hs, hp⟩ | ⟨acc', t', hR, hlt, ht', hd', ho, hs, he, htu⟩
          · cases hv.symm.trans ht'
            rw [hR]
            exact .of_response hstep ht ho hs hp
          · cases hv.symm.trans ht'
            rw [hR]
            rw [← show v.sourceEnded = s.sourceEnded from he, ← show v.source = s.source.tail from hs] at hn ⊢
            rw [List.length_cons] at hn
            exact .of_byte_taken hstep hk hs (Nat.lt_of_succ_lt (lt_decodeGo_symbolsTaken ..)) ho
              (ih hd' hlt htu hr' (by omega) hrun)
    · have hu' : u ≠ .host .reset := fun e => hr (e ▸ List.mem_cons_self)
      obtain ⟨hvd, hvo, hve, hvs, hvt⟩ := takeTurn_keeps_busy_dec (s := { s with turns := ts ++ rest }) hb hu hu' hv
      rw [symbolsFound_other hu] at hn ⊢
      have hvs' : s.source ++ u.handed.toList = v.source := hvs.symm
      rw [hvs', ← show v.sourceEnded = s.sourceEnded from hve] at hn ⊢
      exact (ih (hvd.trans hd) hi hvt hr' hn hrun).of_other_turn hstep hvs hvo

/-! ## A decode from a buffer -/

/-- With no record on offer the decoder's turn and the turns beside a decode are not refused and offer none; they hand no symbol over,
and do not disturb an IDLE decoder. -/
theorem takeTurn_beside_dec {u : Turn} {s : State} (hu : u = .dec ∨ u.besideDec = true) (hp : s.port = none) :
    ∃ t, takeTurn u s = .next t ∧ t.port = none ∧ t.turns = s.turns
      ∧ (s.dec.phase = .idle → t.dec.phase = .idle ∧ t.decOut = s.decOut ∧ t.source = s.source) := by
  cases u with
  | accept => exact ⟨s, portTurn_none hp, hp, rfl, fun h => ⟨h, rfl, rfl⟩⟩
  | enc =>
    refine ⟨encStep s, rfl, ?_⟩
    rcases encStep_cases s with ⟨-, e⟩ | ⟨-, -, -, e⟩ | ⟨-, -, -, e⟩ <;> rw [e] <;> simp [hp]
  | dec =>
    rw [takeTurn_dec]
    rcases decTurn_cases s with ⟨-, e⟩ | ⟨hb, -, e⟩ | ⟨b, hb, -, -, e⟩ | ⟨b, hb, -, -, -, e⟩ | ⟨b, hb, -, -, -, e⟩ <;>
      refine ⟨_, e, ?_⟩ <;> simp [*]
  | host a =>
    cases a with
    | setSinkReady b => exact ⟨_, rfl, hp, rfl, fun h => ⟨h, rfl, rfl⟩⟩
    | _ => simp [Turn.besideDec] at hu

theorem run_beside_dec {rest : List Turn} (ts : List Turn) {s : State} (hts : s.turns = ts ++ rest)
    (hb : ∀ u ∈ ts, u = .dec ∨ u.besideDec = true) (hp : s.port = none) :
    ∃ t, runSteps ts.length s = .next t ∧ t.port = none ∧ t.turns = rest
      ∧ (s.dec.phase = .idle → t.dec.phase = .idle ∧ t.decOut = s.decOut ∧ t.source = s.source) := by
  induction ts generalizing s with
  | nil => exact ⟨s, rfl, hp, hts, fun h => ⟨h, rfl, rfl⟩⟩
  | cons u ts ih =>
    obtain ⟨v, hv, hvp, hvt, hvi⟩ :=
      takeTurn_beside_dec (s := { s with turns := ts ++ rest }) (hb u List.mem_cons_self) hp
    obtain ⟨t, ht, htp, htt, hti⟩ := ih hvt (fun x hx => hb x (List.mem_cons_of_mem u hx)) hvp
    refine ⟨t, (runSteps_succ_of_step ((step_of_turn hts).trans hv)).trans ht, htp, htt, fun hi => ?_⟩
    obtain ⟨hvd, hvo, hvs⟩ := hvi hi
    obtain ⟨htd, hto, hts'⟩ := hti hvd
    exact ⟨htd, hto.trans hvo, hts'.trans hvs⟩

/-- Once the decoder is IDLE, what is left of the schedule changes nothing of what it answered and took. -/
theorem run_beside_idle_dec {rest ts : List Turn} {s u : State} {m : Nat} (hts : s.turns = ts ++ rest)
    (hb : ∀ u ∈ ts, u = .dec ∨ u.besideDec = true) (hp : s.port = none) (hm : m ≤ ts.length) (hu : runSteps m s = .next u)
    (hi : u.dec.phase = .idle) :
    ∃ t, runSteps ts.length s = .next t ∧ t.decOut = u.decOut ∧ t.source = u.source ∧ t.dec.phase = .idle ∧ t.port = none
      ∧ t.turns = rest := by
  have hsplit : s.turns = ts.take m ++ (ts.drop m ++ rest) := by rw [← List.append_assoc, List.take_append_drop, hts]
  obtain ⟨u', hu', hup, hut, -⟩ := run_beside_dec _ hsplit (fun x hx => hb x (List.mem_of_mem_take hx)) hp
  rw [List.length_take_of_le hm, hu] at hu'
  cases hu'
  obtain ⟨t, ht, htp, htt, hti⟩ := run_beside_dec _ hut (fun x hx => hb x (List.mem_of_mem_drop hx)) hup
  obtain ⟨htd, hto, hts'⟩ := hti hi
  refine ⟨t, ?_, hto, hts', htd, htp, htt⟩
  rw [show ts.length = m + (ts.drop m).length by rw [List.length_drop]; omega, runSteps_add hu, ht]

theorem handed_of_besideDec {u : Turn} (hu : u = .dec ∨ u.besideDec = true) : u.handed = none := by
  cases u with
  | host a => cases a <;> simp_all [Turn.besideDec, Turn.handed]
  | _ => rfl

/-- On a buffer every decoder turn finds a symbol, the bytes in order and then End. -/
theorem symbolsFound_buffer (ts : List Turn) (hb : ∀ u ∈ ts, u = .dec ∨ u.besideDec = true) (bytes : List Byte) :
    (symbolsFound true (bytes.map Symbol.byte) ts).length = ts.count .dec
    ∧ bytesBeforeEnd (symbolsFound true (bytes.map Symbol.byte) ts) = bytes.take (ts.count .dec) := by
  induction ts generalizing bytes with
  | nil => simp [symbolsFound, bytesBeforeEnd]
  | cons u ts ih =>
    have ih := ih fun x hx => hb x (List.mem_cons_of_mem u hx)
    by_cases hu : u = .dec
    · subst hu
      cases bytes with
      | nil => simpa [bytesBeforeEnd] using (ih []).1
      | cons b bytes => simpa [bytesBeforeEnd] using ih bytes
    · rw [symbolsFound_other hu, handed_of_besideDec (hb u List.mem_cons_self), List.count_cons_of_ne hu]
      simpa using ih bytes

/-- Beyond the bytes of a buffer a decode takes the End at most. -/
theorem drop_symbolsTaken (w : Nat) (bytes : List Byte) (st : Bool) :
    (bytes.map Symbol.byte).drop (decodeW w bytes st).symbolsTaken = (bytes.drop (decodeW w bytes st).count).map Symbol.byte := by
  rcases decodeGo_end_or_symbolsTaken w st bytes 0 0 with h | h
  · rw [decodeW, h]
    simp [DecodeResult.symbolsTaken, DecodeResult.count]
  · rw [decodeW, h, List.map_drop]

/-! ## The command from its accept on -/

/-- Accept of a decode command by an IDLE decoder (R90). -/
theorem step_accepts_decode {s : State} {r : Record} {w : BitVec 2} {st : Bool} {ts : List Turn} (hi : s.dec.phase = .idle)
    (hp : s.port = some r) (hr : decodeRecord r = .ok (if st = true then decsInstr w else decInstr w))
    (hts : s.turns = .accept :: ts) :
    step s = .next { s with dec := decAfter w st 0 0, port := none, turns := ts } := by
  have hx : exec (if st = true then decsInstr w else decInstr w) { s with turns := ts }
      = .next (acceptDec w st { s with turns := ts }) := by
    cases st
    · exact exec_decInstr w _
    · exact exec_decsInstr w _
  rw [step_of_turn hts, takeTurn_accept, portTurn]
  simp only [hp, hr]
  rw [← hp, hx, acceptDec_idle (by exact hi), decStart_eq_decAfter]

/-- Settles O36: accept puts the decoder where `go` starts, and from there the schedule brings it to the outcome of `go`; on a buffer
the schedule is not refused, and what is left of it after the response changes nothing. -/
theorem decodeRunsToCompletion : Obligations.DecodeRunsToCompletion := by
  intro s r w st ts rest hi hp hr hts hreset
  have haccept := step_accepts_decode hi hp hr hts
  generalize hv : ({ s with dec := decAfter w st 0 0, port := none, turns := ts ++ rest } : State) = v at haccept
  obtain ⟨hvd, hvp, hvt, hvs, hve, hvo⟩ : v.dec = decAfter w st 0 0 ∧ v.port = none ∧ v.turns = ts ++ rest
      ∧ v.source = s.source ∧ v.sourceEnded = s.sourceEnded ∧ v.decOut = s.decOut := by
    subst hv
    exact ⟨rfl, rfl, rfl, rfl, rfl, rfl⟩
  have hends (t : State) := busy_decode_ends (t := t) ts hvd (Nat.zero_le _) hvt hreset
  rw [Nat.zero_add, ← decodeW, hvs, hve] at hends
  constructor
  · intro hn t h
    rw [runSteps_succ_of_step haccept] at h
    obtain ⟨m, u, hm, hu, ho, hs, hd⟩ := hends t hn h
    exact ⟨m, u, hm, (runSteps_succ_of_step haccept).trans hu, hvo ▸ ho, hvs ▸ hs, hd⟩
  · intro bytes hs he hb hn
    obtain ⟨hlen, hbytes⟩ := symbolsFound_buffer ts hb bytes
    obtain ⟨t, ht, -⟩ := run_beside_dec ts hvt hb hvp
    rw [hs, he, hlen, hbytes, decodeW_take hn] at hends
    obtain ⟨m, u, hm, hu, ho, hus, hud⟩ := hends t hn ht
    obtain ⟨t', ht', hto, hts', htd, htp, htt⟩ := run_beside_idle_dec hvt hb hvp hm hu hud
    refine ⟨t', (runSteps_succ_of_step haccept).trans ht', by rw [hto, ho, hvo], ?_, htd, htp, htt⟩
    have hnone : (ts.take m).filterMap Turn.handed = [] :=
      List.filterMap_eq_nil_iff.2 fun x hx => handed_of_besideDec (hb x (List.mem_of_mem_take hx))
    rw [hts', hus, hnone, List.append_nil, Nat.sub_zero, hvs, hs, drop_symbolsTaken]

end Sys2Proof.Machine
end

section
/-! PROOF. The units' turns and the ports (20_memory.md R30 to R36, R46): a byte runs as its instruction, a unit waits on its own port and
never on the command port, the encoder's turn appends to the sink and the decoder's turn takes from the source, and no other turn of the
block touches either. -/

namespace Sys2Proof.Machine

/-! ## The decoder's turn on a byte, and the waits -/

/-- Settles O10: a BUSY decoder with a byte at the front of its source runs the byte's instruction. -/
theorem stepRunsTheSourceByte : Obligations.StepRunsTheSourceByte := by
  intro s ts b rest i hts hb hs hi
  have hk : srcPeek { s with turns := ts } = some (.byte b) := srcPeek_cons hs
  cases hi
  rw [step_of_turn hts, takeTurn_dec]
  simp [decTurn, hb, hk]

/-- Settles O35: an IDLE unit's turn and a turn that waits answer the state itself, the turn taken off. -/
theorem unitsWaitOnTheirPorts : Obligations.UnitsWaitOnTheirPorts := by
  intro s ts
  constructor
  · intro hts hw
    rw [step_of_turn hts, takeTurn_enc]
    rcases hw with hi | hr
    · rw [encStep_idle (by exact hi)]
    · rw [encStep_not_ready (by exact hr)]
  · intro hts hw
    rw [step_of_turn hts, takeTurn_dec]
    rcases hw with hi | ⟨hs, he⟩
    · exact decTurn_idle hi
    · exact decTurn_wait ((srcPeek_eq_none_iff _).2 ⟨hs, he⟩)

/-! ## A unit's turn ignores the command port (R46) -/

theorem encStep_set_port (p : Option Record) (s : State) : encStep { s with port := p } = { encStep s with port := p } := by
  rcases encStep_cases s with ⟨hi | hn, e⟩ | ⟨hb, hr, hx, e⟩ | ⟨hb, hr, hx, e⟩ <;> rw [e]
  · exact encStep_idle hi
  · exact encStep_not_ready hn
  · exact encStep_more hb hr hx
  · exact encStep_last hb hr hx

@[simp] theorem encStep_port (s : State) : (encStep s).port = s.port := by
  rcases encStep_cases s with ⟨-, e⟩ | ⟨-, -, -, e⟩ | ⟨-, -, -, e⟩ <;> simp [e]

theorem takeLast_set_port (p : Option Record) (g : Group) (s : State) :
    takeLast g { s with port := p } = { takeLast g s with port := p } := by
  cases hp : padded s.dec.strict g (s.dec.cnt + 1) <;> simp only [takeLast, hp] <;> rfl

theorem decTurn_set_port (p : Option Record) (s : State) :
    ∃ t, decTurn s = .next t ∧ t.port = s.port ∧ decTurn { s with port := p } = .next { t with port := p } := by
  rcases decTurn_cases s with ⟨hi | hk, e⟩ | ⟨hb, hk, e⟩ | ⟨b, hb, hk, ho, e⟩ | ⟨b, hb, hk, ho, hc, e⟩ |
    ⟨b, hb, hk, ho, hc, e⟩
  · exact ⟨s, e, rfl, decTurn_idle hi⟩
  · exact ⟨s, e, rfl, decTurn_wait hk⟩
  · exact ⟨_, e, takeEnd_port s, decTurn_end hb hk⟩
  · exact ⟨_, e, takeOffending_port s, decTurn_offending hb hk ho⟩
  · exact ⟨_, e, takeMore_port s _, decTurn_more hb hk ho hc⟩
  · exact ⟨_, e, takeLast_port s _, by rw [← takeLast_set_port]; exact decTurn_last hb hk ho hc⟩

/-- Settles O53: neither unit's turn looks at the port or writes it. -/
theorem runningCommandIgnoresThePort : Obligations.RunningCommandIgnoresThePort := by
  rintro s t u p (rfl | rfl) h
  · cases h
    exact ⟨encStep_port s, congrArg Host.Outcome.next (encStep_set_port p s)⟩
  · obtain ⟨t', ht, hport, hset⟩ := decTurn_set_port p s
    cases ht.symm.trans h
    exact ⟨hport, hset⟩

/-! ## Who touches the sink and the source (R30, R33, R41) -/

theorem portTurn_keeps_buffers {s t : State} (h : portTurn s = .next t) :
    t.sink = s.sink ∧ t.source = s.source ∧ t.sourceEnded = s.sourceEnded := by
  rcases portTurn_cases s with ⟨-, e⟩ | ⟨r, -, -, -, e⟩ | ⟨r, -, -, e⟩ | ⟨r, -, -, e⟩ <;> cases e.symm.trans h <;> simp

theorem encStep_keeps_source (s : State) : (encStep s).source = s.source ∧ (encStep s).sourceEnded = s.sourceEnded := by
  rcases encStep_cases s with ⟨-, e⟩ | ⟨-, -, -, e⟩ | ⟨-, -, -, e⟩ <;> simp [e]

/-- The encoder's turn leaves the sink as it is, or appends one byte. -/
theorem encStep_sink_cases (s : State) :
    (encStep s).sink = s.sink ∨ (s.enc.phase = .busy ∧ s.sinkReady = true ∧ ∃ b, (encStep s).sink = s.sink ++ [b]) := by
  rcases encStep_cases s with ⟨-, e⟩ | ⟨hb, hr, -, e⟩ | ⟨hb, hr, -, e⟩ <;> rw [e]
  · exact .inl rfl
  · exact .inr ⟨hb, hr, _, emitMore_sink s⟩
  · exact .inr ⟨hb, hr, _, emitLast_sink s⟩

theorem decTurn_keeps_sink {s t : State} (h : decTurn s = .next t) : t.sink = s.sink ∧ t.sourceEnded = s.sourceEnded := by
  rcases decTurn_cases s with ⟨-, e⟩ | ⟨-, -, e⟩ | ⟨b, -, -, -, e⟩ | ⟨b, -, -, -, -, e⟩ | ⟨b, -, -, -, -, e⟩ <;>
    cases e.symm.trans h <;> simp

/-- A BUSY decoder takes the front symbol; End for ever after an exhausted source takes nothing away. -/
theorem decTurn_takes_front {s t : State} (hb : s.dec.phase = .busy) (h : decTurn s = .next t) : t.source = s.source.tail := by
  rcases decTurn_cases s with ⟨hi | hk, e⟩ | ⟨-, -, e⟩ | ⟨b, -, -, -, e⟩ | ⟨b, -, -, -, -, e⟩ | ⟨b, -, -, -, -, e⟩ <;>
    cases e.symm.trans h
  · rw [hb] at hi; cases hi
  · cases hs : s.source with
    | nil => rfl
    | cons sym rest => rw [srcPeek_cons hs] at hk; cases hk
  · exact takeEnd_source s
  · exact takeOffending_source s
  · exact takeMore_source s _
  · exact takeLast_source s _

theorem hostAct_keeps_sink {a : HostAct} {s t : State} (ha : ∀ bytes, a ≠ .replaceSink bytes) (h : hostAct a s = .next t) :
    t.sink = s.sink := by
  rcases hostAct_next h with ⟨r, -, -, rfl⟩ | ⟨-, ⟨-, rfl⟩ | ⟨r, -, -, rfl⟩⟩ | ⟨w, -, rfl⟩ | ⟨x, y, -, -, rfl⟩ |
    ⟨n, -, -, -, rfl⟩ | ⟨bytes, rfl, -, -⟩ | ⟨b, -, rfl⟩ | ⟨-, rfl⟩
  case inr.inr.inr.inr.inr.inl => exact absurd rfl (ha bytes)
  all_goals rfl

/-- A turn that is not the host's own change of the sink keeps it, or is a BUSY encoder's and appends one byte. -/
theorem takeTurn_sink_cases {u : Turn} {s t : State} (hu : ∀ bytes, u ≠ .host (.replaceSink bytes))
    (h : takeTurn u s = .next t) :
    t.sink = s.sink ∨ (u = .enc ∧ s.enc.phase = .busy ∧ s.sinkReady = true ∧ ∃ b, t.sink = s.sink ++ [b]) := by
  cases u with
  | accept => exact .inl (portTurn_keeps_buffers h).1
  | dec => exact .inl (decTurn_keeps_sink h).1
  | host a => exact .inl (hostAct_keeps_sink (fun bytes ha => hu bytes (congrArg Turn.host ha)) h)
  | enc =>
    cases h
    exact (encStep_sink_cases s).imp_right fun hb => ⟨rfl, hb⟩

/-- Settles O57: a BUSY encoder's turn appends one byte, and every other turn but the host's own change keeps the sink. -/
theorem sinkIsAppendOnly : Obligations.SinkIsAppendOnly := by
  intro s t h hh
  rcases step_cases s with ⟨-, e⟩ | ⟨u, ts, hu, e⟩ <;> rw [e] at h
  · cases h
    exact ⟨[], by simp⟩
  · rw [hu, List.head?_cons] at hh ⊢
    rcases takeTurn_sink_cases (fun bytes hb => hh bytes (congrArg some hb)) h with hk | ⟨rfl, hb, hr, b, hk⟩
    · exact ⟨[], by simpa using hk⟩
    · exact ⟨[b], hk, Nat.le_refl _, fun _ => ⟨rfl, hb, hr⟩⟩

/-- Settles O58: only the decoder's turn takes from the source, and it takes the front. -/
theorem sourceIsTakenFromTheFront : Obligations.SourceIsTakenFromTheFront := by
  intro s t h hh
  rcases step_cases s with ⟨hu, e⟩ | ⟨u, ts, hu, e⟩ <;> rw [e] at h <;> rw [hu]
  · cases h
    simp
  cases u with
  | accept =>
    obtain ⟨-, hs, he⟩ := portTurn_keeps_buffers h
    exact ⟨he, by simp, fun _ => hs⟩
  | enc =>
    cases h
    obtain ⟨hs, he⟩ := encStep_keeps_source { s with turns := ts }
    exact ⟨he, by simp, fun _ => hs⟩
  | dec =>
    refine ⟨(decTurn_keeps_sink h).2, fun ⟨_, hb⟩ => decTurn_takes_front (s := { s with turns := ts }) hb h, fun hn => ?_⟩
    cases hp : s.dec.phase with
    | idle =>
      rw [takeTurn_dec, decTurn_idle (by exact hp)] at h
      cases h
      rfl
    | busy => exact absurd ⟨rfl, hp⟩ hn
  | host a => exact absurd (by rw [hu]; rfl) (hh a)

end Sys2Proof.Machine
end

section
/-! PROOF. The host's acts and the refusals (20_memory.md R44, 30_encoding.md R57, 70_reset_and_hazards.md R170, R171, R180): what each
act does in each case, and, taken the other way round, the only ways a turn is refused. -/

namespace Sys2Proof.Machine

/-! ## Reserved records (R57) -/

theorem isReserved_iff (r : Record) : isReserved r = true ↔ 0x8 ≤ r.toNat / 2 ^ 64 ∧ r.toNat / 2 ^ 64 ≤ 0xB := by
  have hcmd : ∀ c : BitVec 4, (strictOf c && !opOf c) = true ↔ 0x8 ≤ c.toNat ∧ c.toNat ≤ 0xB := by decide
  rw [isReserved, hcmd, cmdOf_toNat]

theorem cmdOf_eq_ofNat (r : Record) : cmdOf r = BitVec.ofNat 4 (r.toNat / 2 ^ 64) := by
  rw [← cmdOf_toNat, BitVec.ofNat_toNat, BitVec.setWidth_eq]

/-- A record that is not reserved decodes, and no other does. -/
theorem isReserved_eq_false_iff (r : Record) : isReserved r = false ↔ ∃ i, decodeRecord r = .ok i := by
  rcases decodeRecord_cases r with ⟨ho, hs, e⟩ | ⟨ho, hs, e⟩ | ⟨ho, hs, e⟩ | ⟨ho, hs, e⟩ <;> simp [isReserved, ho, hs, e]

/-! ## The host's acts, case by case -/

section
variable {s : State}

theorem hostAct_offer {r : Record} (hp : s.port = none) : hostAct (.offer r) s = .next { s with port := some r } := by
  simp [hostAct, hp]

theorem hostAct_offer_occupied {r r' : Record} (hp : s.port = some r') : hostAct (.offer r) s = .refused .portOccupied := by
  simp [hostAct, hp]

theorem hostAct_withdraw_none (hp : s.port = none) : hostAct .withdraw s = .next s := by simp [hostAct, hp]

theorem hostAct_withdraw_reserved {r : Record} (hp : s.port = some r) (hr : isReserved r = true) :
    hostAct .withdraw s = .next { s with port := none } := by
  simp [hostAct, hp, hr]

theorem hostAct_withdraw_held {r : Record} (hp : s.port = some r) (hr : isReserved r = false) :
    hostAct .withdraw s = .refused .recordNotHeld := by
  simp [hostAct, hp, hr]

theorem hostAct_replaceSource_idle {syms : List Symbol} {e : Bool} (hd : s.dec.phase = .idle) :
    hostAct (.replaceSource syms e) s = .next { s with source := syms, sourceEnded := e } := by
  simp [hostAct, hd]

theorem hostAct_replaceSource_busy {syms : List Symbol} {e : Bool} (hd : s.dec.phase = .busy) :
    hostAct (.replaceSource syms e) s = .refused .sharedSource := by
  simp [hostAct, hd]

theorem hostAct_replaceSink_idle {bytes : List Byte} (he : s.enc.phase = .idle) :
    hostAct (.replaceSink bytes) s = .next { s with sink := bytes } := by
  simp [hostAct, he]

theorem hostAct_replaceSink_busy {bytes : List Byte} (he : s.enc.phase = .busy) :
    hostAct (.replaceSink bytes) s = .refused .sharedSink := by
  simp [hostAct, he]

theorem hostAct_presentSink_idle {off : Nat} (he : s.enc.phase = .idle) (hd : s.dec.phase = .idle) :
    hostAct (.presentSink off) s =
      .next { s with source := (s.sink.drop off).map Symbol.byte, sourceEnded := true } := by
  simp [hostAct, he, hd]

theorem hostAct_presentSink_busy_enc {off : Nat} (he : s.enc.phase = .busy) :
    hostAct (.presentSink off) s = .refused .sharedSink := by
  simp [hostAct, he]

theorem hostAct_presentSink_busy_dec {off : Nat} (he : s.enc.phase = .idle) (hd : s.dec.phase = .busy) :
    hostAct (.presentSink off) s = .refused .sharedSource := by
  simp [hostAct, he, hd]

/-- The host's breaches, each refused under its own name. -/
theorem hostAct_refused {a : HostAct} {reason : Refusal} (h : hostAct a s = .refused reason) :
    (∃ r, a = .offer r ∧ s.port ≠ none ∧ reason = .portOccupied)
    ∨ (∃ r i, a = .withdraw ∧ s.port = some r ∧ decodeRecord r = .ok i ∧ reason = .recordNotHeld)
    ∨ (s.enc.phase = .busy ∧ reason = .sharedSink ∧ ((∃ bytes, a = .replaceSink bytes) ∨ ∃ off, a = .presentSink off))
    ∨ (s.dec.phase = .busy ∧ reason = .sharedSource
      ∧ ((∃ syms e, a = .replaceSource syms e) ∨ ∃ off, a = .presentSink off)) := by
  cases a with
  | offer r =>
    cases hp : s.port with
    | none => cases (hostAct_offer hp).symm.trans h
    | some r' =>
      cases (hostAct_offer_occupied hp).symm.trans h
      exact .inl ⟨r, rfl, Option.some_ne_none r', rfl⟩
  | withdraw =>
    cases hp : s.port with
    | none => cases (hostAct_withdraw_none hp).symm.trans h
    | some r =>
      cases hr : isReserved r with
      | true => cases (hostAct_withdraw_reserved hp hr).symm.trans h
      | false =>
        cases (hostAct_withdraw_held hp hr).symm.trans h
        obtain ⟨i, hi⟩ := (isReserved_eq_false_iff r).1 hr
        exact .inr (.inl ⟨r, i, rfl, rfl, hi, rfl⟩)
  | replaceSource syms e =>
    cases hd : s.dec.phase with
    | idle => cases (hostAct_replaceSource_idle hd).symm.trans h
    | busy =>
      cases (hostAct_replaceSource_busy hd).symm.trans h
      exact .inr (.inr (.inr ⟨rfl, rfl, .inl ⟨syms, e, rfl⟩⟩))
  | presentSink off =>
    cases he : s.enc.phase with
    | busy =>
      cases (hostAct_presentSink_busy_enc he).symm.trans h
      exact .inr (.inr (.inl ⟨rfl, rfl, .inr ⟨off, rfl⟩⟩))
    | idle =>
      cases hd : s.dec.phase with
      | idle => cases (hostAct_presentSink_idle he hd).symm.trans h
      | busy =>
        cases (hostAct_presentSink_busy_dec he hd).symm.trans h
        exact .inr (.inr (.inr ⟨rfl, rfl, .inr ⟨off, rfl⟩⟩))
  | replaceSink bytes =>
    cases he : s.enc.phase with
    | idle => cases (hostAct_replaceSink_idle he).symm.trans h
    | busy =>
      cases (hostAct_replaceSink_busy he).symm.trans h
      exact .inr (.inr (.inl ⟨rfl, rfl, .inl ⟨bytes, rfl⟩⟩))
  | offerSymbol w => cases h
  | setSinkReady b => cases h
  | reset => cases h

end

/-- Settles O55: there is no fault to answer (R155); the units' turns always answer a state, the port's turn refuses a reserved code and
the host's turn a breach. -/
theorem stepsNeverFaultAndRefuseOnlyBreaches : Obligations.StepsNeverFaultAndRefuseOnlyBreaches := by
  refine ⟨fun _ f => (nomatch f), fun s reason h => ?_⟩
  rcases step_cases s with ⟨-, e⟩ | ⟨u, ts, hu, e⟩ <;> rw [e] at h
  · cases h
  cases u with
  | enc => cases h
  | dec =>
    obtain ⟨t, ht⟩ := decTurn_next { s with turns := ts }
    cases ht.symm.trans h
  | accept =>
    rcases portTurn_cases { s with turns := ts } with ⟨-, e⟩ | ⟨r, -, -, -, e⟩ | ⟨r, -, -, e⟩ | ⟨r, hp, hr, e⟩ <;>
      cases e.symm.trans h
    obtain ⟨hlo, hhi⟩ := (isReserved_iff r).1 hr
    exact .inl ⟨ts, r, hu, hp, hlo, hhi, congrArg Refusal.reservedCommand (cmdOf_eq_ofNat r)⟩
  | host a =>
    rcases hostAct_refused h with ⟨r, rfl, hp, rfl⟩ | ⟨r, i, rfl, hp, hi, rfl⟩ | ⟨hb, rfl, ha⟩ | ⟨hb, rfl, ha⟩
    · exact .inr (.inl ⟨ts, r, hu, hp, rfl⟩)
    · exact .inr (.inr (.inl ⟨ts, r, i, hu, hp, hi, rfl⟩))
    · exact .inr (.inr (.inr (.inl ⟨ts, a, hu, hb, rfl, ha⟩)))
    · exact .inr (.inr (.inr (.inr ⟨ts, a, hu, hb, rfl, ha⟩)))

/-- Settles O59: each act is refused by the phase of the unit whose buffer it touches. -/
theorem sharedBuffersAreRefused : Obligations.SharedBuffersAreRefused := by
  intro s ts
  exact ⟨fun bytes he hu => (step_of_turn hu).trans (hostAct_replaceSink_busy he),
    fun off he hu => (step_of_turn hu).trans (hostAct_presentSink_busy_enc he),
    fun syms e hd hu => (step_of_turn hu).trans (hostAct_replaceSource_busy hd),
    fun off he hd hu => (step_of_turn hu).trans (hostAct_presentSink_busy_dec he hd)⟩

/-- A withdrawal in its three cases. -/
theorem step_withdraw {s : State} {ts : List Turn} (hu : s.turns = .host .withdraw :: ts) :
    (s.port = none → step s = .next { s with turns := ts })
    ∧ (∀ r, s.port = some r → 0x8 ≤ r.toNat / 2 ^ 64 → r.toNat / 2 ^ 64 ≤ 0xB →
      step s = .next { s with port := none, turns := ts })
    ∧ (∀ r i, s.port = some r → decodeRecord r = .ok i → step s = .refused .recordNotHeld) := by
  rw [step_of_turn hu, takeTurn_host]
  exact ⟨fun hp => hostAct_withdraw_none hp,
    fun r hp hlo hhi => hostAct_withdraw_reserved hp ((isReserved_iff r).2 ⟨hlo, hhi⟩),
    fun r i hp hi => hostAct_withdraw_held hp ((isReserved_eq_false_iff r).2 ⟨i, hi⟩)⟩

/-- Settles O60: the turn is taken off, and each act does what its case says. -/
theorem hostActsOnThePorts : Obligations.HostActsOnThePorts := by
  intro s ts
  exact ⟨fun r hu hp => (step_of_turn hu).trans (hostAct_offer hp),
    fun r r' hu hp => (step_of_turn hu).trans (hostAct_offer_occupied hp),
    fun w hu => step_of_turn hu,
    fun off hu he hd => (step_of_turn hu).trans (hostAct_presentSink_idle he hd),
    fun b hu => step_of_turn hu,
    step_withdraw,
    fun syms e hu hd => (step_of_turn hu).trans (hostAct_replaceSource_idle hd),
    fun bytes hu he => (step_of_turn hu).trans (hostAct_replaceSink_idle he)⟩

end Sys2Proof.Machine
end

section
/-! PROOF. The encodings (30_encoding.md R50 to R62): a `CMD` is its three fields put together, so a record of each class decodes to its
own command and a command encodes to its own record; a wire byte is its flag and its group put together. -/

namespace Sys2Proof

/-! ## The rows of the command map (R56, R57) -/

theorem decodeRecord_reserved_class (w : BitVec 2) (v : Operand) :
    decodeRecord (recordOf (0b10#2 ++ w : BitVec 4) v) = .error (.reservedCommand (0b10#2 ++ w)) := by
  simp [decodeRecord]

/-- Settles O2: a row is one of the four classes at one of the four width selects. -/
theorem commandMapRowByRow : Obligations.CommandMapRowByRow := by
  intro v
  exact ⟨decodeRecord_encode_class 0 v, decodeRecord_encode_class 1 v, decodeRecord_encode_class 2 v,
    decodeRecord_encode_class 3 v, decodeRecord_lenient_class 0 v, decodeRecord_lenient_class 1 v,
    decodeRecord_lenient_class 2 v, decodeRecord_lenient_class 3 v, decodeRecord_reserved_class 0 v,
    decodeRecord_reserved_class 1 v, decodeRecord_reserved_class 2 v, decodeRecord_reserved_class 3 v,
    decodeRecord_strict_class 0 v, decodeRecord_strict_class 1 v, decodeRecord_strict_class 2 v,
    decodeRecord_strict_class 3 v⟩

/-! ## Decoding and encoding undo each other (R51, R56, R58) -/

@[simp] theorem encode_encInstr (w : BitVec 2) (v : Operand) :
    encode (encInstr w v) = .record (recordOf (0b00#2 ++ w : BitVec 4) v) := by
  rcases Machine.width_cases w with ⟨rfl, -⟩ | ⟨rfl, -⟩ | ⟨rfl, -⟩ | ⟨rfl, -⟩ <;> rfl

@[simp] theorem encode_decInstr (w : BitVec 2) : encode (decInstr w) = .record (recordOf (0b01#2 ++ w : BitVec 4) 0) := by
  rcases Machine.width_cases w with ⟨rfl, -⟩ | ⟨rfl, -⟩ | ⟨rfl, -⟩ | ⟨rfl, -⟩ <;> rfl

@[simp] theorem encode_decsInstr (w : BitVec 2) : encode (decsInstr w) = .record (recordOf (0b11#2 ++ w : BitVec 4) 0) := by
  rcases Machine.width_cases w with ⟨rfl, -⟩ | ⟨rfl, -⟩ | ⟨rfl, -⟩ | ⟨rfl, -⟩ <;> rfl

@[simp] theorem decodeByte_wireByte (c : Bool) (g : Group) :
    decodeByte (wireByte c g) = if c then .contb g else .lastb g := by
  simp [decodeByte]

@[simp] theorem encode_decodeByte (b : Byte) : encode (decodeByte b) = .byte b := by
  have hb := wireByte_contOf_groupOf b
  cases hc : contOf b <;> rw [hc] at hb <;> simp [decodeByte, hc, encode, hb]

theorem decode_encode (i : Instr) : decode (encode i) = .ok i := by
  cases i with
  | enc8 v => exact decodeRecord_encode_class 0 v
  | enc16 v => exact decodeRecord_encode_class 1 v
  | enc32 v => exact decodeRecord_encode_class 2 v
  | enc64 v => exact decodeRecord_encode_class 3 v
  | dec8 => exact decodeRecord_lenient_class 0 0
  | dec16 => exact decodeRecord_lenient_class 1 0
  | dec32 => exact decodeRecord_lenient_class 2 0
  | dec64 => exact decodeRecord_lenient_class 3 0
  | decs8 => exact decodeRecord_strict_class 0 0
  | decs16 => exact decodeRecord_strict_class 1 0
  | decs32 => exact decodeRecord_strict_class 2 0
  | decs64 => exact decodeRecord_strict_class 3 0
  | contb g => exact congrArg Except.ok (decodeByte_wireByte true g)
  | lastb g => exact congrArg Except.ok (decodeByte_wireByte false g)

/-- A `CMD` is `STRICT`, `OP` and `WSEL` put together (R55). -/
theorem cmd_eq_fields :
    ∀ c : BitVec 4, (BitVec.ofBool (strictOf c) ++ BitVec.ofBool (opOf c) : BitVec 2) ++ wselOf c = c := by decide

theorem append_wselOf {c : BitVec 4} {k : BitVec 2}
    (h : BitVec.ofBool (strictOf c) ++ BitVec.ofBool (opOf c) = k) : k ++ wselOf c = c := by
  rw [← h, cmd_eq_fields]

/-- Encoding what a record decodes to gives the record, a decode command's ignored `OPERAND` written 0 (R58). -/
theorem encode_of_decodeRecord {r : Record} {i : Instr} (h : decodeRecord r = .ok i) :
    encode i = .record (recordOf (cmdOf r) (if opOf (cmdOf r) = true then 0 else operandOf r)) := by
  rcases decodeRecord_cases r with ⟨ho, hs, e⟩ | ⟨-, -, e⟩ | ⟨ho, hs, e⟩ | ⟨ho, hs, e⟩ <;> cases e.symm.trans h
  · rw [encode_encInstr, append_wselOf (c := cmdOf r) (by rw [hs, ho]; rfl), if_neg (by simp [ho])]
  · rw [encode_decInstr, append_wselOf (c := cmdOf r) (by rw [hs, ho]; rfl), if_pos ho]
  · rw [encode_decsInstr, append_wselOf (c := cmdOf r) (by rw [hs, ho]; rfl), if_pos ho]

/-- Settles O1: a record's fields and a byte's fields are put together as they were taken apart. -/
theorem decodeAndEncodeAgree : Obligations.DecodeAndEncodeAgree :=
  ⟨decode_encode, fun _ _ h => encode_of_decodeRecord h, fun b => ⟨decodeByte b, rfl, encode_decodeByte b⟩⟩

/-! ## Where the fields stand (R54, R55, R59, R60, R62) -/

theorem strictOf_cmdOf (r : Record) : strictOf (cmdOf r) = r.getLsbD 67 := by simp [strictOf, cmdOf]

theorem opOf_cmdOf (r : Record) : opOf (cmdOf r) = r.getLsbD 66 := by simp [opOf, cmdOf]

theorem wselOf_toNat (c : BitVec 4) : (wselOf c).toNat = c.toNat % 4 := by
  simp [wselOf, BitVec.extractLsb'_toNat]

/-- Settles O3: each field is the slice of the record its definition takes. -/
theorem recordFieldsStandWhereTheSpecPutsThem : Obligations.RecordFieldsStandWhereTheSpecPutsThem := by
  intro r
  have hw : (wselOf (cmdOf r)).toNat = r.toNat / 2 ^ 64 % 4 := by rw [wselOf_toNat, cmdOf_toNat]
  refine ⟨cmdOf_toNat r, operandOf_toNat r, strictOf_cmdOf r, opOf_cmdOf r, hw, ?_⟩
  rw [Machine.width, Nat.shiftLeft_eq, hw]

/-- `END`, bit 8 of a symbol word (R62). -/
theorem endBit_iff (w : SymbolBits) : w.getLsbD 8 = true ↔ 0x100 ≤ w.toNat := by
  have h := w.isLt
  rw [BitVec.getLsbD, Nat.testBit_eq_decide_div_mod_eq, decide_eq_true_iff]
  omega

/-- Settles O5: bit 8 decides, and below it the word is its byte. -/
theorem sourceSymbolBits : Obligations.SourceSymbolBits := by
  intro w
  rw [decodeSymbol]
  refine ⟨fun h => if_pos ((endBit_iff w).2 h), fun h => ?_⟩
  rw [if_neg (mt (endBit_iff w).1 (by omega))]
  refine congrArg Symbol.byte (BitVec.eq_of_toNat_eq ?_)
  rw [BitVec.extractLsb'_toNat, BitVec.toNat_ofNat, Nat.shiftRight_zero]

/-- Settles O6: each word is one of R51's or R56's, its fields read off. -/
theorem sampleWordsDecode : Obligations.SampleWordsDecode :=
  ⟨rfl, rfl, rfl, rfl, rfl, rfl, rfl⟩

/-- `STATUS`, `COUNT` and `VALUE` put together, as a number (R60). -/
theorem response_toNat (status : BitVec 2) (count : BitVec 4) (value : BitVec 64) :
    (status ++ count ++ value : BitVec 70).toNat = status.toNat * 2 ^ 68 + count.toNat * 2 ^ 64 + value.toNat := by
  rw [BitVec.toNat_append, ← Nat.shiftLeft_add_eq_or_of_lt value.isLt, BitVec.toNat_append,
    ← Nat.shiftLeft_add_eq_or_of_lt count.isLt, Nat.shiftLeft_eq, Nat.shiftLeft_eq]
  ring

/-- Settles O7: a response is its fields put together. -/
theorem responseRecordBits : Obligations.ResponseRecordBits := by
  refine ⟨fun _ => rfl, fun v n => ?_, fun n => ⟨?_, ?_, ?_⟩⟩ <;> refine (response_toNat _ _ _).trans ?_ <;>
    simp [Machine.Failure.status]

/-! ## The bits a command ignores (R58) -/

theorem decodeRecord_of_op {c : BitVec 4} (h : opOf c = true) (v : Operand) :
    decodeRecord (recordOf c v) = .ok (if strictOf c then decsInstr (wselOf c) else decInstr (wselOf c)) := by
  cases hs : strictOf c <;> simp [decodeRecord, h, hs]

theorem acceptEnc_operand_mod {w : BitVec 2} {v v' : Operand}
    (h : v.toNat % 2 ^ Machine.width w = v'.toNat % 2 ^ Machine.width w) (s : Machine.State) :
    Machine.acceptEnc w v s = Machine.acceptEnc w v' s := by
  rw [Machine.acceptEnc, Machine.acceptEnc, Machine.encOperand_eq, Machine.encOperand_eq, h]

/-- Settles O15: an encode latches its operand modulo 2^W, and a decode's record is read for its `CMD` only. -/
theorem ignoredOperandBitsDoNotMatter : Obligations.IgnoredOperandBitsDoNotMatter := by
  refine ⟨fun s v v' => ⟨fun h => ?_, fun h => ?_, fun h => ?_⟩, fun c v v' h => ?_⟩
  · exact congrArg Host.Outcome.next (acceptEnc_operand_mod (w := 0) h s)
  · exact congrArg Host.Outcome.next (acceptEnc_operand_mod (w := 1) h s)
  · exact congrArg Host.Outcome.next (acceptEnc_operand_mod (w := 2) h s)
  · rw [decodeRecord_of_op h, decodeRecord_of_op h]

/-! ## The two byte classes, and where an encoding ends (R51, R52) -/

theorem decodeByte_contb {b : Byte} (h : 0x80 ≤ b.toNat) : decodeByte b = .contb (BitVec.ofNat 7 (b.toNat - 0x80)) := by
  rw [decodeByte, if_pos ((contOf_iff b).2 h)]
  refine congrArg Instr.contb (BitVec.eq_of_toNat_eq ?_)
  rw [groupOf_toNat, BitVec.toNat_ofNat]
  omega

theorem decodeByte_lastb {b : Byte} (h : b.toNat < 0x80) : decodeByte b = .lastb (BitVec.ofNat 7 b.toNat) := by
  rw [decodeByte, if_neg (by simpa using (contOf_eq_false_iff b).2 h)]
  refine congrArg Instr.lastb (BitVec.eq_of_toNat_eq ?_)
  rw [groupOf_toNat, BitVec.toNat_ofNat]

/-- A byte sequence that goes on past the `LASTB` byte of an encoding is none. -/
theorem isEncoding_append_eq_nil {a c : List Byte} (ha : Machine.isEncoding a = true)
    (hac : Machine.isEncoding (a ++ c) = true) : c = [] := by
  induction a with
  | nil => cases ha
  | cons b rest ih =>
    rw [List.cons_append, Machine.isEncoding_cons_iff] at hac
    rcases (Machine.isEncoding_cons_iff b rest).1 ha with ⟨hb, rfl⟩ | ⟨hb, hrest⟩
    · rcases hac with ⟨-, hc⟩ | ⟨hb', -⟩
      · exact hc
      · rw [hb] at hb'; cases hb'
    · rcases hac with ⟨hb', -⟩ | ⟨-, hac⟩
      · rw [hb] at hb'; cases hb'
      · exact ih hrest hac

theorem isEncoding_append_lastb {a : List Byte} (ha : ∀ x ∈ a, 0x80 ≤ x.toNat) {b : Byte} (hb : b.toNat < 0x80) :
    Machine.isEncoding (a ++ [b]) = true := by
  induction a with
  | nil => simpa using (contOf_eq_false_iff b).2 hb
  | cons x rest ih =>
    obtain ⟨hx, hrest⟩ := List.forall_mem_cons.1 ha
    exact (Machine.isEncoding_cons_iff x _).2 (.inr ⟨(contOf_iff x).2 hx, ih hrest⟩)

/-- Settles O4: bit 7 decides a byte's class, and an encoding goes on past its `CONTB` bytes and no further than its first `LASTB`. -/
theorem everyByteHasOneClassAndEndsItsEncoding : Obligations.EveryByteHasOneClassAndEndsItsEncoding := by
  refine ⟨fun _ => ⟨decodeByte_contb, decodeByte_lastb⟩, fun a c ha hac => isEncoding_append_eq_nil ha hac,
    fun a c b ha hb => ?_⟩
  have hab := isEncoding_append_lastb ha hb
  exact ⟨hab, fun h => isEncoding_append_eq_nil hab (by rwa [List.append_assoc])⟩

end Sys2Proof
end

section
/-! PROOF. The command port's turn and the responses (30_encoding.md R57, 40_encoder.md R71, 41_decoder.md R91): the port's turn runs the
record's instruction or refuses a reserved code, no other turn but the host's withdrawal takes a reserved record away, and a unit
responds in the step that makes it IDLE. -/

namespace Sys2Proof.Machine

/-! ## The record on offer (R54, R57) -/

theorem portTurn_of_decodeRecord {s : State} {r : Record} {i : Instr} (hp : s.port = some r) (hi : decodeRecord r = .ok i) :
    portTurn s = exec i s := by
  simp [portTurn, hp, hi]

/-- Settles O9: the port's turn runs the instruction the record decodes to. -/
theorem stepRunsTheOfferedCommand : Obligations.StepRunsTheOfferedCommand := by
  intro s ts r i hu hp hi
  exact (step_of_turn hu).trans (portTurn_of_decodeRecord hp hi)

/-- Settles O11: the port's turn refuses a reserved code. -/
theorem reservedCodeIsRefused : Obligations.ReservedCodeIsRefused := by
  intro s ts r hu hp hlo hhi
  rw [step_of_turn hu, ← cmdOf_eq_ofNat]
  exact portTurn_reserved hp ((isReserved_iff r).2 ⟨hlo, hhi⟩)

theorem hostAct_keeps_record {a : HostAct} {s t : State} {r : Record} (hp : s.port = some r) (ha : a ≠ .withdraw)
    (h : hostAct a s = .next t) : t.port = some r := by
  rcases hostAct_next h with ⟨r', -, hn, -⟩ | ⟨rfl, -⟩ | ⟨w, -, rfl⟩ | ⟨x, y, -, -, rfl⟩ | ⟨n, -, -, -, rfl⟩ |
    ⟨bytes, -, -, rfl⟩ | ⟨b, -, rfl⟩ | ⟨-, rfl⟩
  case inl => rw [hp] at hn; cases hn
  case inr.inl => exact absurd rfl ha
  all_goals exact hp

/-- A turn that answers a state leaves a reserved record on offer, unless it is the host's withdrawal (R57). -/
theorem takeTurn_keeps_reserved {u : Turn} {s t : State} {r : Record} (hp : s.port = some r) (hr : isReserved r = true)
    (hu : u ≠ .host .withdraw) (h : takeTurn u s = .next t) : t.port = some r := by
  cases u with
  | accept => cases (portTurn_reserved hp hr).symm.trans h
  | enc =>
    cases h
    exact (encStep_port s).trans hp
  | dec =>
    obtain ⟨t', ht, hport, -⟩ := decTurn_set_port none s
    cases ht.symm.trans h
    exact hport.trans hp
  | host a => exact hostAct_keeps_record hp (fun ha => hu (congrArg Turn.host ha)) h

/-- Settles O12: the port's turn is refused, and every other turn but the withdrawal keeps the record. -/
theorem reservedRecordStaysUntilWithdrawn : Obligations.ReservedRecordStaysUntilWithdrawn := by
  intro s t r hp hlo hhi h
  have hr := (isReserved_iff r).2 ⟨hlo, hhi⟩
  rcases step_cases s with ⟨hu, e⟩ | ⟨u, ts, hu, e⟩ <;> rw [e] at h <;> rw [hu]
  · cases h
    exact ⟨fun _ => hp, fun hh => (by cases hh)⟩
  · refine ⟨fun hh => takeTurn_keeps_reserved (s := { s with turns := ts }) hp hr (fun hw => hh (congrArg some hw)) h,
      fun hh => ?_⟩
    cases hh
    obtain ⟨-, hw, -⟩ := step_withdraw hu
    cases (e.symm.trans (hw r hp hlo hhi)).symm.trans h
    rfl

/-! ## One response per command (R59, R60) -/

/-- One response more if a unit goes from BUSY to IDLE, and none otherwise. -/
def OneResponse {α : Type} (p p' : Phase) (out out' : List α) : Prop :=
  (p = .busy ∧ p' = .idle → ∃ r, out' = out ++ [r]) ∧ (¬(p = .busy ∧ p' = .idle) → out' = out)

/-- The response of each unit in a step from `s` to `t`. -/
def RespondsOnce (s t : State) : Prop :=
  OneResponse s.dec.phase t.dec.phase s.decOut t.decOut ∧ OneResponse s.enc.phase t.enc.phase s.encOut t.encOut

section
variable {α : Type} {p p' : Phase} {out out' : List α}

theorem OneResponse.of_response {r : α} (hp : p = .busy) (hp' : p' = .idle) (ho : out' = out ++ [r]) :
    OneResponse p p' out out' :=
  ⟨fun _ => ⟨r, ho⟩, fun hn => absurd ⟨hp, hp'⟩ hn⟩

theorem OneResponse.of_phase_eq (hp : p' = p) (ho : out' = out) : OneResponse p p' out out' := by
  refine ⟨fun ⟨hb, hi⟩ => ?_, fun _ => ho⟩
  rw [hp, hb] at hi
  cases hi

theorem OneResponse.of_idle (hp : p = .idle) (ho : out' = out) : OneResponse p p' out out' := by
  refine ⟨fun ⟨hb, _⟩ => ?_, fun _ => ho⟩
  rw [hp] at hb
  cases hb

end

theorem RespondsOnce.of_dec {s t : State} (hd : OneResponse s.dec.phase t.dec.phase s.decOut t.decOut) (he : t.enc = s.enc)
    (ho : t.encOut = s.encOut) : RespondsOnce s t :=
  ⟨hd, .of_phase_eq (congrArg EncRegs.phase he) ho⟩

theorem RespondsOnce.of_enc {s t : State} (he : OneResponse s.enc.phase t.enc.phase s.encOut t.encOut) (hd : t.dec = s.dec)
    (ho : t.decOut = s.decOut) : RespondsOnce s t :=
  ⟨.of_phase_eq (congrArg DecRegs.phase hd) ho, he⟩

theorem RespondsOnce.refl (s : State) : RespondsOnce s s := .of_dec (.of_phase_eq rfl rfl) rfl rfl

theorem portTurn_respondsOnce {s t : State} (h : portTurn s = .next t) : RespondsOnce s t := by
  rcases portTurn_cases s with ⟨-, e⟩ | ⟨r, -, -, -, e⟩ | ⟨r, -, -, e⟩ | ⟨r, -, -, e⟩ <;> cases e.symm.trans h
  · exact .refl _
  · rcases acceptEnc_cases (wselOf (cmdOf r)) (operandOf r) s with ⟨hi, e⟩ | ⟨-, e⟩ <;> rw [e]
    · exact .of_enc (.of_idle hi rfl) rfl rfl
    · exact .refl _
  · rcases acceptDec_cases (wselOf (cmdOf r)) (strictOf (cmdOf r)) s with ⟨hi, e⟩ | ⟨-, e⟩ <;> rw [e]
    · exact .of_dec (.of_idle hi rfl) rfl rfl
    · exact .refl _

theorem encStep_respondsOnce (s : State) : RespondsOnce s (encStep s) := by
  rcases encStep_cases s with ⟨-, e⟩ | ⟨-, -, -, e⟩ | ⟨hb, -, -, e⟩ <;> rw [e]
  · exact .refl _
  · exact .of_enc (.of_phase_eq rfl rfl) rfl rfl
  · exact .of_enc (.of_response hb rfl (emitLast_encOut s)) rfl rfl

theorem decTurn_respondsOnce {s t : State} (h : decTurn s = .next t) : RespondsOnce s t := by
  rcases decTurn_cases s with ⟨-, e⟩ | ⟨hb, -, e⟩ | ⟨b, hb, -, -, e⟩ | ⟨b, -, -, -, -, e⟩ | ⟨b, hb, -, -, -, e⟩ <;>
    cases e.symm.trans h
  · exact .refl _
  · exact .of_dec (.of_response hb rfl (takeEnd_decOut s)) rfl rfl
  · exact .of_dec (.of_response hb rfl (takeOffending_decOut s)) rfl rfl
  · exact .of_dec (.of_phase_eq rfl rfl) rfl rfl
  · exact .of_dec (.of_response hb (takeLast_dec_phase s _) (takeLast_decOut s _)) (takeLast_enc s _) (takeLast_encOut s _)

/-- No act of the host but reset touches a unit or its responses. -/
theorem hostAct_respondsOnce {a : HostAct} {s t : State} (ha : a ≠ .reset) (h : hostAct a s = .next t) : RespondsOnce s t := by
  rcases hostAct_next h with ⟨r, -, -, rfl⟩ | ⟨-, ⟨-, rfl⟩ | ⟨r, -, -, rfl⟩⟩ | ⟨w, -, rfl⟩ | ⟨x, y, -, -, rfl⟩ |
    ⟨n, -, -, -, rfl⟩ | ⟨bytes, -, -, rfl⟩ | ⟨b, -, rfl⟩ | ⟨rfl, -⟩
  case inr.inr.inr.inr.inr.inr.inr => exact absurd rfl ha
  all_goals exact .refl _

theorem takeTurn_respondsOnce {u : Turn} {s t : State} (hu : u ≠ .host .reset) (h : takeTurn u s = .next t) :
    RespondsOnce s t := by
  cases u with
  | accept => exact portTurn_respondsOnce h
  | enc =>
    cases h
    exact encStep_respondsOnce s
  | dec => exact decTurn_respondsOnce h
  | host a => exact hostAct_respondsOnce (fun ha => hu (congrArg Turn.host ha)) h

/-- Settles O56: each turn responds once for a unit it makes IDLE, and for no other. -/
theorem oneResponsePerCommand : Obligations.OneResponsePerCommand := by
  intro s t h hr
  have hres : RespondsOnce s t := by
    rcases step_cases s with ⟨-, e⟩ | ⟨u, ts, hu, e⟩ <;> rw [e] at h
    · cases h
      exact .refl _
    · rw [hu] at hr
      exact takeTurn_respondsOnce (s := { s with turns := ts }) (fun hw => hr (congrArg some hw)) h
  obtain ⟨⟨hd, hd'⟩, he, he'⟩ := hres
  exact ⟨hd, hd', he, he'⟩

end Sys2Proof.Machine
end

section
/-! PROOF. The range of `COUNT` in the outcomes of `go` (30_encoding.md R60, 41_decoder.md R92, 42_laws.md R128). -/

namespace Sys2Proof.Machine

/-- What each outcome of a decode at width `w` of `len` bytes counts. -/
def DecodeResult.InRange (w len : Nat) (st : Bool) : DecodeResult → Prop
  | .ok v n => 1 ≤ n ∧ n ≤ maxLen w ∧ n ≤ len ∧ v < 2 ^ w
  | .error .unexpectedEndOfInput n => n = len ∧ n ≤ maxLen w
  | .error .overflow n => 2 ≤ n ∧ n ≤ maxRead w ∧ n ≤ len
  | .error .nonCanonical n => st = true ∧ 2 ≤ n ∧ n ≤ maxLen w ∧ n ≤ len

/-- A first group never overflows a width of seven bits or more. -/
theorem one_le_of_offending {w i : Nat} {g : Group} (hw : 7 ≤ w) (ho : offending w (7 * i) g = true) : 1 ≤ i := by
  rw [offending_iff] at ho
  omega

/-- OR with a group that is not offending stays below 2^W. -/
theorem or_group_lt {w sh acc : Nat} {g : Group} (ho : offending w sh g = false) (ha : acc < 2 ^ w) :
    acc ||| (g.toNat * 2 ^ sh) < 2 ^ w :=
  Nat.or_lt_two_pow ha ((offending_eq_false_iff _ _ _).1 ho).2

/-- From an index in range `go` answers in range, of the bytes before the index and those after it. -/
theorem decodeGo_inRange {w : Nat} (hw : 7 ≤ w) (st : Bool) (bytes : List Byte) {i acc : Nat} (hi : i ≤ maxLen w)
    (ha : acc < 2 ^ w) : (decodeGo w st bytes i acc).InRange w (i + bytes.length) st := by
  induction bytes generalizing i acc with
  | nil => exact ⟨rfl, hi⟩
  | cons b rest ih =>
    rw [List.length_cons, ← Nat.add_assoc, Nat.add_right_comm]
    cases ho : offending w (7 * i) (groupOf b) with
    | true =>
      rw [decodeGo_offending ho]
      exact ⟨Nat.succ_le_succ (one_le_of_offending hw ho), Nat.succ_le_succ hi, Nat.le_add_right _ _⟩
    | false =>
      have hlt : i < maxLen w := (lt_maxLen_iff w i).2 ((offending_eq_false_iff _ _ _).1 ho).1
      have ha' := or_group_lt ho ha
      cases hc : contOf b with
      | true =>
        rw [decodeGo_more ho hc]
        exact ih hlt ha'
      | false =>
        rw [decodeGo_last ho hc]
        split
        next hpad =>
          obtain ⟨hst, -, hpos⟩ := hpad
          exact ⟨hst, Nat.succ_le_succ hpos, hlt, Nat.le_add_right _ _⟩
        next => exact ⟨Nat.le_add_left _ _, hlt, Nat.le_add_right _ _, ha'⟩

/-- Settles O46: `go` starts at index 0 with nothing accumulated. -/
theorem responseCountRanges : Obligations.ResponseCountRanges := by
  intro w bytes st hw
  have h := decodeGo_inRange hw st bytes (i := 0) (acc := 0) (Nat.zero_le _) (by positivity)
  rw [Nat.zero_add] at h
  exact h

end Sys2Proof.Machine
end

section
/-! PROOF. The encoder's accept and its step (40_encoder.md R70, R71, R76): a record whose `CMD[3:2]` is 00 decodes to the encode
command of its own width select, and the byte a step appends is the low group of the value left, flagged when more follows. -/

namespace Sys2Proof.Machine

/-! ## Command accept (R70) -/

/-- `CMD[3:2]` = 00 is the class of the encode commands (30_encoding.md R56). -/
theorem op_strict_of_lt_four : ∀ c : BitVec 4, c.toNat < 4 → opOf c = false ∧ strictOf c = false := by decide

theorem decodeRecord_encode {r : Record} (h : r.toNat / 2 ^ 66 = 0) :
    decodeRecord r = .ok (encInstr (wselOf (cmdOf r)) (operandOf r)) := by
  obtain ⟨ho, hs⟩ := op_strict_of_lt_four (cmdOf r) (by rw [cmdOf_toNat]; omega)
  simp [decodeRecord, ho, hs]

theorem width_eq (w : BitVec 2) : width w = 8 * 2 ^ w.toNat := by rw [width, Nat.shiftLeft_eq]

/-- What accept latches of a record: the low W bits of the record are those of its operand, W being at most 64. -/
theorem encOperand_operandOf (w : BitVec 2) (r : Record) :
    encOperand w (operandOf r) = BitVec.ofNat 64 (r.toNat % 2 ^ width w) := by
  rw [encOperand_eq, operandOf_toNat, Nat.mod_mod_of_dvd _ (Nat.pow_dvd_pow 2 (width_le w))]

/-- Accept of an encode command by an IDLE encoder. -/
theorem step_accepts_encode {s : State} {r : Record} {w : BitVec 2} {v : Operand} {ts : List Turn} (hi : s.enc.phase = .idle)
    (hp : s.port = some r) (hr : decodeRecord r = .ok (encInstr w v)) (hts : s.turns = .accept :: ts) :
    step s = .next { s with enc := ⟨.busy, w, encOperand w v, 0⟩, port := none, turns := ts } := by
  rw [step_of_turn hts, takeTurn_accept, portTurn_of_decodeRecord (by exact hp) hr, exec_encInstr, acceptEnc_idle (by exact hi)]

/-- The encode commands at an IDLE encoder, by width select. -/
theorem exec_encInstr_idle {s : State} (h : s.enc.phase = .idle) (w : BitVec 2) (v : Operand) :
    exec (encInstr w v) s
      = .next { s with enc := ⟨.busy, w, BitVec.ofNat 64 (v.toNat % 2 ^ width w), 0⟩, port := none } := by
  rw [exec_encInstr, acceptEnc_idle h, encOperand_eq]

theorem exec_encInstr_busy {s : State} (h : s.enc.phase = .busy) (w : BitVec 2) (v : Operand) :
    exec (encInstr w v) s = .next s := by
  rw [exec_encInstr, acceptEnc_busy h]

/-- Settles O13: the four commands are `encInstr` at the four width selects, and a record of the class decodes to one of them. -/
theorem encoderAcceptLatches : Obligations.EncoderAcceptLatches := by
  intro s v
  refine ⟨fun hi => ?_, fun hb => ?_, fun ts r hts hp hr hi => ?_⟩
  · have h64 : BitVec.ofNat 64 (v.toNat % 2 ^ width 3#2) = v := by
      rw [width_three, Nat.mod_eq_of_lt v.isLt, BitVec.ofNat_toNat, BitVec.setWidth_eq]
    have h3 := exec_encInstr_idle hi 3#2 v
    rw [h64] at h3
    exact ⟨exec_encInstr_idle hi 0 v, exec_encInstr_idle hi 1 v, exec_encInstr_idle hi 2 v, h3⟩
  · exact ⟨exec_encInstr_busy hb 0 v, exec_encInstr_busy hb 1 v, exec_encInstr_busy hb 2 v, exec_encInstr_busy hb 3 v⟩
  · intro wsel
    have hw : wsel = (wselOf (cmdOf r)).toNat := by rw [wselOf_toNat, cmdOf_toNat]
    rw [hw, step_accepts_encode hi hp (decodeRecord_encode hr) hts, encOperand_operandOf, width_eq, BitVec.ofNat_toNat,
      BitVec.setWidth_eq]

/-! ## The encoder step (R71) -/

/-- A byte of an encoding as a number: the flag and the low seven bits. -/
theorem wireByte_ofNat (c : Bool) (x : Nat) :
    wireByte c (BitVec.ofNat 7 x) = BitVec.ofNat 8 ((if c then 128 else 0) + x % 128) := by
  apply BitVec.eq_of_toNat_eq
  rw [wireByte_toNat, BitVec.toNat_ofNat, BitVec.toNat_ofNat]
  cases c <;> simp <;> omega

theorem encGroup_eq (x : BitVec 64) : encGroup x = BitVec.ofNat 7 x.toNat := by
  apply BitVec.eq_of_toNat_eq
  rw [encGroup_toNat, BitVec.toNat_ofNat]

theorem wireByte_true_encGroup (x : BitVec 64) : wireByte true (encGroup x) = BitVec.ofNat 8 (128 + x.toNat % 128) := by
  rw [encGroup_eq, wireByte_ofNat, if_pos rfl]

theorem wireByte_false_encGroup (x : BitVec 64) : wireByte false (encGroup x) = BitVec.ofNat 8 (x.toNat % 128) := by
  rw [encGroup_eq, wireByte_ofNat, if_neg Bool.false_ne_true, Nat.zero_add]

theorem encRest_eq (x : BitVec 64) : encRest x = BitVec.ofNat 64 (x.toNat / 128) := by
  rw [← encRest_toNat, BitVec.ofNat_toNat, BitVec.setWidth_eq]

theorem emitMore_eq (s : State) :
    emitMore s = { s with
      sink := s.sink ++ [BitVec.ofNat 8 (128 + s.enc.x.toNat % 128)]
      enc := ⟨s.enc.phase, s.enc.wsel, BitVec.ofNat 64 (s.enc.x.toNat / 128), s.enc.cnt + 1⟩ } := by
  rw [← encRest_eq, ← wireByte_true_encGroup]
  rfl

theorem emitLast_eq (s : State) :
    emitLast s = { s with
      sink := s.sink ++ [BitVec.ofNat 8 (s.enc.x.toNat % 128)]
      enc := ⟨.idle, s.enc.wsel, 0, s.enc.cnt⟩
      encOut := s.encOut ++ [⟨s.enc.cnt + 1⟩] } := by
  rw [← wireByte_false_encGroup]
  rfl

/-- Settles O17: the encoder's turn is `emitMore` or `emitLast` by what is left of the value. -/
theorem encoderStepEmitsOneByte : Obligations.EncoderStepEmitsOneByte := by
  intro s ts hts hb hr
  rw [step_of_turn hts, takeTurn_enc]
  refine ⟨fun hx => ?_, fun hx => ?_⟩
  · rw [encStep_more (by exact hb) (by exact hr) (by exact hx), emitMore_eq, hb]
  · rw [encStep_last (by exact hb) (by exact hr) (by exact hx), emitLast_eq]

/-- Settles O20: zero is one group, and the encoder's step on it is its last. -/
theorem zeroEncodesAsOneByte : Obligations.ZeroEncodesAsOneByte := by
  refine ⟨fun w => ?_, fun s ts hts hb hx hc hr => ?_⟩
  · rw [encodeW_of_lt (by positivity), encBytes_of_lt (by norm_num)]
    rfl
  · obtain ⟨-, hlast⟩ := encoderStepEmitsOneByte s ts hts hb hr
    have hstep := hlast (by rw [hx]; rfl)
    rw [hx, hc] at hstep
    exact ⟨_, hstep, rfl, rfl, rfl⟩

end Sys2Proof.Machine
end

section
/-! PROOF. The bytes of an encoding (40_encoder.md R72 to R78, 42_laws.md R127): by induction on the groups of the value, byte i carries
group i, and the last group holds the value's highest bits. -/

namespace Sys2Proof.Machine

/-- Group i + 1 of a value is group i of what is left after the first. -/
theorem div_two_pow_group_succ (x i : Nat) : x / 2 ^ (7 * (i + 1)) = x / 128 / 2 ^ (7 * i) := by
  change _ = x / 2 ^ 7 / 2 ^ (7 * i)
  rw [Nat.div_div_eq_div_mul, Nat.mul_succ, Nat.add_comm, pow_add]

/-- Byte i carries group i, its flag set when another byte follows. -/
theorem encBytes_getElem? (x i : Nat) (hi : i < (encBytes x).length) :
    (encBytes x)[i]?
      = some (BitVec.ofNat 8 ((if i + 1 < (encBytes x).length then 128 else 0) + x / 2 ^ (7 * i) % 128)) := by
  induction x using group_induction generalizing i with
  | base x hx =>
    rw [encBytes_of_lt hx] at hi ⊢
    obtain rfl : i = 0 := Nat.lt_one_iff.1 hi
    simp [wireByte_ofNat]
  | more x hx ih =>
    have hpos : 0 < (encBytes (x / 128)).length := encBytes_length_pos _
    rw [encBytes_of_ge hx] at hi ⊢
    cases i with
    | zero => simp [wireByte_ofNat, hpos]
    | succ i =>
      rw [List.length_cons] at hi
      simp [ih i (Nat.lt_of_succ_lt_succ hi), div_two_pow_group_succ]

/-- The encoding reaches the value's highest bit. -/
theorem div_two_pow_encBytes_length (x : Nat) : x / 2 ^ (7 * (encBytes x).length) = 0 := by
  induction x using group_induction with
  | base x hx => rw [encBytes_of_lt hx]; exact Nat.div_eq_of_lt hx
  | more x hx ih => rw [encBytes_of_ge hx, List.length_cons, div_two_pow_group_succ, ih]

/-- The encoding stops at the value's highest bit. -/
theorem div_two_pow_encBytes_last_ne_zero (x : Nat) (h : 1 < (encBytes x).length) :
    x / 2 ^ (7 * ((encBytes x).length - 1)) ≠ 0 := by
  induction x using group_induction with
  | base x hx => rw [encBytes_of_lt hx] at h; exact absurd h (by simp)
  | more x hx ih =>
    have hpos := encBytes_length_pos (x / 128)
    rw [encBytes_of_ge hx, List.length_cons, Nat.add_sub_cancel]
    obtain ⟨n, hn⟩ := Nat.exists_eq_add_of_le' hpos
    rw [hn, div_two_pow_group_succ]
    rcases Nat.eq_zero_or_pos n with rfl | hn0
    · rw [Nat.mul_zero, pow_zero, Nat.div_one]; omega
    · rw [hn] at ih; exact ih (by omega)

/-- The last group is all that is left of the value there. -/
theorem last_group_lt (x : Nat) : x / 2 ^ (7 * ((encBytes x).length - 1)) < 128 := by
  obtain ⟨n, hn⟩ := Nat.exists_eq_add_of_le' (encBytes_length_pos x)
  have h := div_two_pow_encBytes_length x
  rw [hn, Nat.mul_succ, pow_add, ← Nat.div_div_eq_div_mul] at h
  rw [hn, Nat.add_sub_cancel]
  exact (Nat.div_eq_zero_iff_lt (by norm_num)).1 h

/-- Settles O21: at a value that fits, `encode_W` is `enc`. -/
theorem encodingBytesAreTheGroups : Obligations.EncodingBytesAreTheGroups := by
  intro w v hv
  rw [encodeW_of_lt hv]
  refine ⟨encBytes_getElem? v, fun h => ?_, div_two_pow_encBytes_length v⟩
  rw [Nat.mod_eq_of_lt (last_group_lt v)]
  exact div_two_pow_encBytes_last_ne_zero v h

/-- An encoding of more than one byte is of a value with a bit in its last group. -/
theorem two_pow_le_of_encBytes_length {x : Nat} (h : 1 < (encBytes x).length) : 2 ^ (7 * ((encBytes x).length - 1)) ≤ x :=
  (Nat.div_pos_iff.1 (Nat.pos_of_ne_zero (div_two_pow_encBytes_last_ne_zero x h))).2

/-- The encoder produces at most MAXLEN(W) bytes (R127). -/
theorem encodeW_length_le_maxLen {w : Nat} (hw : 1 ≤ w) (o : Nat) : (encodeW w o).length ≤ maxLen w := by
  have hx : o % 2 ^ w < 2 ^ w := Nat.mod_lt _ (by positivity)
  have hi : 7 * ((encBytes (o % 2 ^ w)).length - 1) < w := by
    by_cases h : 1 < (encBytes (o % 2 ^ w)).length
    · exact (Nat.pow_lt_pow_iff_right (by norm_num)).1 (lt_of_le_of_lt (two_pow_le_of_encBytes_length h) hx)
    · omega
  have := (lt_maxLen_iff w _).2 hi
  rw [encodeW]
  omega

/-- The last byte of an encoding is its last group, the flag clear. -/
theorem encBytes_getLast? (x : Nat) :
    (encBytes x).getLast? = some (BitVec.ofNat 8 (x / 2 ^ (7 * ((encBytes x).length - 1)))) := by
  have hpos := encBytes_length_pos x
  rw [List.getLast?_eq_getElem?, encBytes_getElem? x _ (by omega), if_neg (by omega), Nat.zero_add,
    Nat.mod_eq_of_lt (last_group_lt x)]

/-- The last byte of an encoding of more than one byte is not zero, and holds no bit above the width. -/
theorem encodeW_getLast?_bounds {w o : Nat} (h : 1 < (encodeW w o).length) :
    ∃ b : Byte, (encodeW w o).getLast? = some b ∧ 1 ≤ b.toNat ∧ b.toNat < 2 ^ (w - 7 * ((encodeW w o).length - 1)) := by
  rw [encodeW] at h ⊢
  have hx : o % 2 ^ w < 2 ^ w := Nat.mod_lt _ (by positivity)
  generalize o % 2 ^ w = x at h hx ⊢
  have hle := two_pow_le_of_encBytes_length h
  have hlt := (Nat.pow_lt_pow_iff_right (by norm_num)).1 (lt_of_le_of_lt hle hx)
  refine ⟨_, encBytes_getLast? x, ?_⟩
  rw [BitVec.toNat_ofNat, Nat.mod_eq_of_lt (lt_trans (last_group_lt x) (by norm_num))]
  refine ⟨Nat.pos_of_ne_zero (div_two_pow_encBytes_last_ne_zero x h), ?_⟩
  rw [Nat.div_lt_iff_lt_mul (by positivity), ← pow_add, Nat.sub_add_cancel hlt.le]
  exact hx

/-- Settles O25: W - 7 * (MAXLEN(W) - 1) bits are left for the last byte. -/
theorem lastByteOfALongestEncoding : Obligations.LastByteOfALongestEncoding := by
  intro k v h
  have hm : 1 < maxLen (width k) := (lt_maxLen_iff _ _).2 (by have := le_width k; omega)
  obtain ⟨b, hb, hpos, hlt⟩ := encodeW_getLast?_bounds (h ▸ hm)
  rw [h] at hlt
  refine ⟨b, hb, hpos, ?_⟩
  rcases width_cases k with ⟨rfl, -⟩ | ⟨rfl, -⟩ | ⟨rfl, -⟩ | ⟨rfl, -⟩ <;> exact Nat.le_of_lt_succ hlt

/-- Settles O26: each encoding is computed. -/
theorem encoderWorkedExamples : Obligations.EncoderWorkedExamples := by
  unfold Obligations.EncoderWorkedExamples
  decide

end Sys2Proof.Machine
end

section
/-! PROOF. An encode command runs to its response (40_encoder.md R71, R77, R79, 42_laws.md R120, R136). What the sink and ENC's
responses come to once the running encode has ended (`State.encTotal`) is the same before and after every turn but a reset, and each encoder turn that
finds the sink ready leaves one byte fewer to be appended. -/

namespace Sys2Proof.Machine

/-! ## What a running encode has still to give -/

/-- The bytes a running encode has still to append. -/
def State.encPending (s : State) : List Byte :=
  match s.enc.phase with
  | .idle => []
  | .busy => encBytes s.enc.x.toNat

/-- The response a running encode has still to give. -/
def State.encOwed (s : State) : List EncResponse :=
  match s.enc.phase with
  | .idle => []
  | .busy => [⟨s.enc.cnt + BitVec.ofNat 4 (encBytes s.enc.x.toNat).length⟩]

/-- The sink and ENC's responses as they are once the running encode has ended. -/
def State.encTotal (s : State) : List Byte × List EncResponse := (s.sink ++ s.encPending, s.encOut ++ s.encOwed)

section
variable {s t : State}

theorem encPending_of_idle (h : s.enc.phase = .idle) : s.encPending = [] := by simp [State.encPending, h]

theorem encPending_of_busy (h : s.enc.phase = .busy) : s.encPending = encBytes s.enc.x.toNat := by simp [State.encPending, h]

theorem encOwed_of_busy (h : s.enc.phase = .busy) :
    s.encOwed = [⟨s.enc.cnt + BitVec.ofNat 4 (encBytes s.enc.x.toNat).length⟩] := by simp [State.encOwed, h]

theorem encTotal_of_idle (h : s.enc.phase = .idle) : s.encTotal = (s.sink, s.encOut) := by
  simp [State.encTotal, State.encPending, State.encOwed, h]

theorem encPending_congr (he : t.enc = s.enc) : t.encPending = s.encPending := by simp [State.encPending, he]

theorem encTotal_congr (he : t.enc = s.enc) (hk : t.sink = s.sink) (ho : t.encOut = s.encOut) : t.encTotal = s.encTotal := by
  simp [State.encTotal, State.encPending, State.encOwed, he, hk, ho]

/-- A BUSY encoder always owes a byte, so one that owes none is IDLE. -/
theorem enc_idle_of_encPending_length (h : s.encPending.length ≤ 0) : s.enc.phase = .idle := by
  cases hp : s.enc.phase with
  | idle => rfl
  | busy =>
    rw [encPending_of_busy hp] at h
    exact absurd h (Nat.not_le.2 (encBytes_length_pos _))

/-- A pass that goes on appends the first byte of the encoding of the value left. -/
theorem emitMore_encPending (hb : s.enc.phase = .busy) (hx : s.enc.x.toNat / 128 ≠ 0) :
    s.encPending = wireByte true (encGroup s.enc.x) :: (emitMore s).encPending := by
  rw [encPending_of_busy hb, encPending_of_busy (s := emitMore s) hb, emitMore_enc, encRest_toNat, encGroup_eq,
    encBytes_of_ge (by omega)]

theorem emitMore_encTotal (hb : s.enc.phase = .busy) (hx : s.enc.x.toNat / 128 ≠ 0) : (emitMore s).encTotal = s.encTotal := by
  have hlen : (encBytes s.enc.x.toNat).length = (encBytes (s.enc.x.toNat / 128)).length + 1 := by
    rw [encBytes_of_ge (by omega), List.length_cons]
  have howed : (emitMore s).encOwed = s.encOwed := by
    rw [encOwed_of_busy hb, encOwed_of_busy (s := emitMore s) hb, emitMore_enc, encRest_toNat, hlen, BitVec.ofNat_add,
      BitVec.add_assoc, BitVec.add_comm 1]
    rfl
  rw [State.encTotal, State.encTotal, howed, emitMore_encPending hb hx, emitMore_sink, emitMore_encOut, List.append_assoc]
  rfl

/-- The pass that stops appends the one byte left and gives the response owed. -/
theorem emitLast_encTotal (hb : s.enc.phase = .busy) (hx : s.enc.x.toNat / 128 = 0) : (emitLast s).encTotal = s.encTotal := by
  rw [encTotal_of_idle (s := emitLast s) rfl, State.encTotal, encPending_of_busy hb, encOwed_of_busy hb,
    encBytes_of_lt (by omega), ← encGroup_eq]
  rfl

end

/-! ## Along a schedule -/

/-- A turn keeps what the running encode comes to, and leaves it no more bytes than the schedule has ready encoder turns for. -/
def EncTurn (u : Turn) (s t : State) : Prop :=
  t.encTotal = s.encTotal ∧ t.turns = s.turns
  ∧ ∀ ts, s.encPending.length ≤ readyEncTurns s.sinkReady (u :: ts) → t.encPending.length ≤ readyEncTurns t.sinkReady ts

theorem EncTurn.of_encStep (s : State) : EncTurn .enc s (encStep s) := by
  rcases encStep_cases s with ⟨hw, e⟩ | ⟨hb, hr, hx, e⟩ | ⟨hb, hr, hx, e⟩ <;> rw [e]
  · refine ⟨rfl, rfl, fun ts h => ?_⟩
    rcases hw with hi | hr
    · simp [encPending_of_idle hi]
    · rwa [readyEncTurns_enc, hr, Bool.toNat_false, Nat.zero_add, ← hr] at h
  · refine ⟨emitMore_encTotal hb hx, rfl, fun ts h => ?_⟩
    rw [readyEncTurns_enc, emitMore_encPending hb hx, List.length_cons, hr, Bool.toNat_true] at h
    rw [emitMore_sinkReady, hr]
    omega
  · exact ⟨emitLast_encTotal hb hx, rfl, fun ts _ => by simp [encPending_of_idle (s := emitLast s) rfl]⟩

/-- A turn that leaves the encoder, its sink and its responses alone. -/
theorem EncTurn.of_untouched {u : Turn} {s t : State} (hu : u ≠ .enc)
    (h : t.enc = s.enc ∧ t.sink = s.sink ∧ t.encOut = s.encOut ∧ t.sinkReady = u.readyAfter s.sinkReady ∧ t.turns = s.turns) :
    EncTurn u s t := by
  obtain ⟨he, hk, ho, hr, ht⟩ := h
  refine ⟨encTotal_congr he hk ho, ht, fun ts h => ?_⟩
  rwa [encPending_congr he, hr, ← readyEncTurns_other hu]

/-- Beside a BUSY encoder, whatever the turn is but a reset. -/
theorem takeTurn_busy_enc {u : Turn} {s t : State} (hb : s.enc.phase = .busy) (hr : u ≠ .host .reset)
    (h : takeTurn u s = .next t) : EncTurn u s t := by
  by_cases hu : u = .enc
  · subst hu
    cases h
    exact .of_encStep s
  · exact .of_untouched hu (takeTurn_keeps_busy_enc hb hu hr h)

/-- With no record on offer the encoder's turn and the turns beside an encode are not refused and offer none. -/
theorem takeTurn_beside_enc {u : Turn} {s : State} (hu : u = .enc ∨ u.besideEnc = true) (hp : s.port = none) :
    ∃ t, takeTurn u s = .next t ∧ t.port = none ∧ EncTurn u s t := by
  cases u with
  | accept => exact ⟨s, portTurn_none hp, hp, .of_untouched (by simp) ⟨rfl, rfl, rfl, rfl, rfl⟩⟩
  | enc => exact ⟨encStep s, rfl, (encStep_port s).trans hp, .of_encStep s⟩
  | dec =>
    rw [takeTurn_dec]
    rcases decTurn_cases s with ⟨-, e⟩ | ⟨-, -, e⟩ | ⟨b, -, -, -, e⟩ | ⟨b, -, -, -, -, e⟩ | ⟨b, -, -, -, -, e⟩ <;>
      exact ⟨_, e, by simp [hp], .of_untouched (by simp) (by simp [Turn.readyAfter])⟩
  | host a =>
    cases a with
    | offerSymbol w => exact ⟨_, rfl, hp, .of_untouched (by simp) ⟨rfl, rfl, rfl, rfl, rfl⟩⟩
    | setSinkReady b => exact ⟨_, rfl, hp, .of_untouched (by simp) ⟨rfl, rfl, rfl, rfl, rfl⟩⟩
    | _ => simp [Turn.besideEnc] at hu

/-- Any schedule without reset that has enough ready encoder turns brings a running encode to its end. -/
theorem busy_encode_ends {rest : List Turn} (ts : List Turn) {s t : State} (hts : s.turns = ts ++ rest)
    (hr : .host .reset ∉ ts) (hn : s.encPending.length ≤ readyEncTurns s.sinkReady ts) (h : runSteps ts.length s = .next t) :
    ∃ m u, m ≤ ts.length ∧ runSteps m s = .next u ∧ u.encTotal = s.encTotal ∧ u.enc.phase = .idle := by
  induction ts generalizing s with
  | nil => exact ⟨0, s, Nat.le_refl 0, rfl, rfl, enc_idle_of_encPending_length hn⟩
  | cons x ts ih =>
    cases hb : s.enc.phase with
    | idle => exact ⟨0, s, Nat.zero_le _, rfl, rfl, hb⟩
    | busy =>
      obtain ⟨v, hv, hstep, hrun⟩ := runSteps_succ_next hts h
      have hx : x ≠ .host .reset := fun e => hr (e ▸ List.mem_cons_self)
      obtain ⟨htotal, hvt, hvn⟩ := takeTurn_busy_enc (s := { s with turns := ts ++ rest }) hb hx hv
      obtain ⟨m, u, hm, hu, hut, hui⟩ := ih hvt (fun hm => hr (List.mem_cons_of_mem x hm)) (hvn ts hn) hrun
      exact ⟨m + 1, u, Nat.succ_le_succ hm, (runSteps_succ_of_step hstep).trans hu, hut.trans htotal, hui⟩

/-- A schedule of turns beside an encode is not refused, and ends with the encode ended and nothing more having happened. -/
theorem run_beside_enc {rest : List Turn} (ts : List Turn) {s : State} (hts : s.turns = ts ++ rest)
    (hb : ∀ u ∈ ts, u = .enc ∨ u.besideEnc = true) (hp : s.port = none)
    (hn : s.encPending.length ≤ readyEncTurns s.sinkReady ts) :
    ∃ t, runSteps ts.length s = .next t ∧ t.encTotal = s.encTotal ∧ t.enc.phase = .idle ∧ t.port = none ∧ t.turns = rest := by
  induction ts generalizing s with
  | nil => exact ⟨s, rfl, rfl, enc_idle_of_encPending_length hn, hp, hts⟩
  | cons u ts ih =>
    obtain ⟨v, hv, hvp, htotal, hvt, hvn⟩ :=
      takeTurn_beside_enc (s := { s with turns := ts ++ rest }) (hb u List.mem_cons_self) hp
    obtain ⟨t, ht, htt, hti⟩ := ih hvt (fun x hx => hb x (List.mem_cons_of_mem u hx)) hvp (hvn ts hn)
    exact ⟨t, (runSteps_succ_of_step ((step_of_turn hts).trans hv)).trans ht, htt.trans htotal, hti⟩

/-! ## The command from its accept on -/

/-- Right after accept a running encode owes `encode_W` of the operand and its length. -/
theorem encTotal_after_accept {s : State} {w : BitVec 2} {v : Operand} (h : s.enc = ⟨.busy, w, encOperand w v, 0⟩) :
    s.encPending = encodeW (width w) v.toNat
    ∧ s.encTotal = (s.sink ++ encodeW (width w) v.toNat, s.encOut ++ [⟨BitVec.ofNat 4 (encodeW (width w) v.toNat).length⟩]) := by
  have hb : s.enc.phase = .busy := by rw [h]
  have hx : encBytes s.enc.x.toNat = encodeW (width w) v.toNat := by rw [h, encOperand_toNat]; rfl
  have hc : s.enc.cnt = 0 := by rw [h]
  rw [State.encTotal, encPending_of_busy hb, encOwed_of_busy hb, hx, hc]
  exact ⟨rfl, by rw [zero_add]⟩

/-- Settles O18: after accept the encode owes `encode_W` of the operand, at most MAXLEN(W) bytes. Every unrefused schedule with as many
ready encoder turns ends it, and turns beside it are not refused. -/
theorem encodeRunsToCompletion : Obligations.EncodeRunsToCompletion := by
  intro s r w v ts rest hi hp hr hts hreset hn
  have haccept := step_accepts_encode hi hp hr hts
  generalize hv : ({ s with enc := ⟨.busy, w, encOperand w v, 0⟩, port := none, turns := ts ++ rest } : State) = a at haccept
  obtain ⟨hae, hap, hat, hak, hao, har⟩ : a.enc = ⟨.busy, w, encOperand w v, 0⟩ ∧ a.port = none ∧ a.turns = ts ++ rest
      ∧ a.sink = s.sink ∧ a.encOut = s.encOut ∧ a.sinkReady = s.sinkReady := by
    subst hv
    exact ⟨rfl, rfl, rfl, rfl, rfl, rfl⟩
  obtain ⟨hpending, htotal⟩ := encTotal_after_accept hae
  rw [hak, hao] at htotal
  have hlen : a.encPending.length ≤ readyEncTurns a.sinkReady ts := by
    rw [hpending, har]
    exact (encodeW_length_le_maxLen (by have := le_width w; omega) _).trans hn
  have hended {u : State} (hu : u.encTotal = a.encTotal) (hui : u.enc.phase = .idle) :=
    Prod.mk.inj ((encTotal_of_idle hui).symm.trans (hu.trans htotal))
  constructor
  · intro t h
    rw [runSteps_succ_of_step haccept] at h
    obtain ⟨m, u, hm, hu, hut, hui⟩ := busy_encode_ends ts hat hreset hlen h
    obtain ⟨hsink, hout⟩ := hended hut hui
    exact ⟨m + 1, u, Nat.succ_le_succ hm, (runSteps_succ_of_step haccept).trans hu, hsink, hout, hui⟩
  · intro hb
    obtain ⟨t, ht, htt, hti, htp, htr⟩ := run_beside_enc ts hat hb hap hlen
    obtain ⟨hsink, hout⟩ := hended htt hti
    exact ⟨t, (runSteps_succ_of_step haccept).trans ht, hsink, hout, hti, htp, htr⟩

end Sys2Proof.Machine
end

section
/-! PROOF. What a unit does on its turn depends on its own registers and its own port alone (42_laws.md R136): the case a turn falls into,
and what each case writes and answers, speak of nothing else. -/

namespace Sys2Proof.Machine

section
variable {s t : State}

/-- The encoder's turn from two states with the same encoder registers and sink readiness. -/
theorem encStep_own_side (he : s.enc = t.enc) (hr : s.sinkReady = t.sinkReady) :
    (encStep s).enc = (encStep t).enc
    ∧ ∃ bytes resps, (encStep s).sink = s.sink ++ bytes ∧ (encStep t).sink = t.sink ++ bytes
      ∧ (encStep s).encOut = s.encOut ++ resps ∧ (encStep t).encOut = t.encOut ++ resps := by
  rcases encStep_cases s with ⟨hi | hn, e⟩ | ⟨hb, hk, hx, e⟩ | ⟨hb, hk, hx, e⟩ <;> rw [e]
  · rw [encStep_idle (he ▸ hi)]
    exact ⟨he, [], [], by simp⟩
  · rw [encStep_not_ready (hr ▸ hn)]
    exact ⟨he, [], [], by simp⟩
  · rw [encStep_more (he ▸ hb) (hr ▸ hk) (he ▸ hx)]
    exact ⟨by simp [he], [wireByte true (encGroup s.enc.x)], [], by simp [he]⟩
  · rw [encStep_last (he ▸ hb) (hr ▸ hk) (he ▸ hx)]
    exact ⟨by simp [he], [wireByte false (encGroup s.enc.x)], [⟨s.enc.cnt + 1⟩], by simp [he]⟩

theorem groupOffends_congr (hd : s.dec = t.dec) (g : Group) : groupOffends g s = groupOffends g t := by
  rw [groupOffends, groupOffends, hd]

theorem lastResponse_congr (hd : s.dec = t.dec) (g : Group) : lastResponse g s = lastResponse g t := by
  rw [lastResponse, lastResponse, hd]

/-- The decoder's turn from two states with the same decoder registers and symbol on offer. -/
theorem decTurn_own_side (hd : s.dec = t.dec) (hk : srcPeek s = srcPeek t) :
    ∃ s' t', decTurn s = .next s' ∧ decTurn t = .next t' ∧ s'.dec.phase = t'.dec.phase
      ∧ (s'.dec.phase = .busy → s'.dec = t'.dec)
      ∧ ∃ resps, s'.decOut = s.decOut ++ resps ∧ t'.decOut = t.decOut ++ resps := by
  rcases decTurn_cases s with ⟨hi | hn, e⟩ | ⟨hb, hs, e⟩ | ⟨b, hb, hs, ho, e⟩ | ⟨b, hb, hs, ho, hc, e⟩ |
    ⟨b, hb, hs, ho, hc, e⟩
  · exact ⟨s, t, e, decTurn_idle (hd ▸ hi), by rw [hd], fun _ => hd, [], by simp⟩
  · exact ⟨s, t, e, decTurn_wait (hk ▸ hn), by rw [hd], fun _ => hd, [], by simp⟩
  · exact ⟨_, _, e, decTurn_end (hd ▸ hb) (hk ▸ hs), rfl, by simp, [.error .unexpectedEndOfInput s.dec.cnt], by simp [hd]⟩
  · rw [groupOffends_congr hd] at ho
    exact ⟨_, _, e, decTurn_offending (hd ▸ hb) (hk ▸ hs) ho, rfl, by simp, [.error .overflow (s.dec.cnt + 1)], by simp [hd]⟩
  · rw [groupOffends_congr hd] at ho
    exact ⟨_, _, e, decTurn_more (hd ▸ hb) (hk ▸ hs) ho hc, by simp [hd], fun _ => by simp [hd], [], by simp⟩
  · rw [groupOffends_congr hd] at ho
    exact ⟨_, _, e, decTurn_last (hd ▸ hb) (hk ▸ hs) ho hc, by simp, by simp, [lastResponse (groupOf b) s],
      by simp [lastResponse_congr hd]⟩

end

/-- Settles O52: both turns answer a next state, so the two lemmas above are the statement. -/
theorem unitStepDependsOnItsOwnSide : Obligations.UnitStepDependsOnItsOwnSide :=
  ⟨fun _ _ he hr => ⟨_, _, rfl, rfl, encStep_own_side he hr⟩, fun _ _ hd hk => decTurn_own_side hd hk⟩

end Sys2Proof.Machine
end

section
/-! PROOF. The decoder's accept and its step (41_decoder.md R90, R91, R93, 60_exceptions.md R143): a record whose `CMD[2]` is 1 decodes to
the decode command of its own width select and policy, and which step a byte takes is read off the overflow test, the byte's class and
the padding test. -/

namespace Sys2Proof.Machine

/-! ## Command accept (R90) -/

/-- The decode commands, by width select and policy. -/
theorem exec_decode (w : BitVec 2) (st : Bool) (s : State) :
    exec (if st = true then decsInstr w else decInstr w) s = .next (acceptDec w st s) := by
  cases st
  · exact exec_decInstr w s
  · exact exec_decsInstr w s

theorem exec_decode_idle {s : State} (h : s.dec.phase = .idle) (w : BitVec 2) (st : Bool) :
    exec (if st = true then decsInstr w else decInstr w) s
      = .next { s with dec := ⟨.busy, w, st, 0, 0, 0⟩, port := none } := by
  rw [exec_decode, acceptDec_idle h, decStart]

theorem exec_decode_busy {s : State} (h : s.dec.phase = .busy) (w : BitVec 2) (st : Bool) :
    exec (if st = true then decsInstr w else decInstr w) s = .next s := by
  rw [exec_decode, acceptDec_busy h]

theorem wselOf_cmdOf (r : Record) : wselOf (cmdOf r) = BitVec.ofNat 2 (r.toNat / 2 ^ 64 % 4) := by
  rw [← cmdOf_toNat, ← wselOf_toNat, BitVec.ofNat_toNat, BitVec.setWidth_eq]

/-- Settles O14: the eight commands are the two policies at the four width selects, and a record of the class is accepted with the
width select and the policy of its `CMD`. -/
theorem decoderAcceptStartsAfresh : Obligations.DecoderAcceptStartsAfresh := by
  intro s
  refine ⟨fun hi => ?_, fun hb => ?_, fun ts r hts hp hr hi => ?_⟩
  · have h := exec_decode_idle hi
    exact ⟨h 0 false, h 1 false, h 2 false, h 3 false, h 0 true, h 1 true, h 2 true, h 3 true⟩
  · have h := exec_decode_busy hb
    exact ⟨h 0 false, h 1 false, h 2 false, h 3 false, h 0 true, h 1 true, h 2 true, h 3 true⟩
  · rw [step_of_turn hts, takeTurn_accept, portTurn_decode (by exact hp) ((opOf_cmdOf r).trans hr), acceptDec_idle (by exact hi),
      decStart, wselOf_cmdOf, strictOf_cmdOf]

/-! ## The overflow test (R93) -/

/-- At a width that ends inside byte `last`, that byte is offending by its value, the bytes after it by their index, and none before it. -/
theorem offending_group_iff {w last : Nat} (hlo : 7 * last < w) (hhi : w < 7 * (last + 1)) (i : Nat) (g : Group) :
    offending w (7 * i) g = true ↔ last < i ∨ (i = last ∧ 2 ^ (w - 7 * last) ≤ g.toNat) := by
  rw [offending_iff]
  rcases Nat.lt_trichotomy i last with h | rfl | h
  · omega
  · have hq : g.toNat / 2 ^ (w - 7 * i) ≠ 0 ↔ 2 ^ (w - 7 * i) ≤ g.toNat := by simp
    rw [hq]
    omega
  · omega

/-- Settles O33: W bits end inside byte 1, 2, 4 or 9, leaving it 1, 2, 4 or 1 bits. -/
theorem overflowTestTable : Obligations.OverflowTestTable := by
  intro k i g
  rcases width_cases k with ⟨rfl, -⟩ | ⟨rfl, -⟩ | ⟨rfl, -⟩ | ⟨rfl, -⟩
  · exact offending_group_iff (w := 8) (last := 1) (by norm_num) (by norm_num) i g
  · exact offending_group_iff (w := 16) (last := 2) (by norm_num) (by norm_num) i g
  · exact offending_group_iff (w := 32) (last := 4) (by norm_num) (by norm_num) i g
  · exact offending_group_iff (w := 64) (last := 9) (by norm_num) (by norm_num) i g

/-! ## A byte of each class at a BUSY decoder (R91) -/

section
variable {s : State} {g : Group} (hb : s.dec.phase = .busy)
include hb

theorem exec_offending {i : Instr} (hi : i = .contb g ∨ i = .lastb g) (ho : groupOffends g s = true) :
    exec i s = .next (takeOffending s) := by
  rcases hi with rfl | rfl
  · simp [exec, execContb, hb, ho]
  · simp [exec, execLastb, hb, ho]

theorem exec_contb_more (ho : groupOffends g s = false) : exec (.contb g) s = .next (takeMore g s) := by
  simp [exec, execContb, hb, ho]

theorem exec_lastb_last (ho : groupOffends g s = false) : exec (.lastb g) s = .next (takeLast g s) := by
  simp [exec, execLastb, hb, ho]

end

theorem groupOffends_eq_false {s : State} {g : Group} (hs : s.dec.shift.toNat < width s.dec.wsel)
    (hg : g.toNat * 2 ^ s.dec.shift.toNat < 2 ^ width s.dec.wsel) : groupOffends g s = false :=
  (offending_eq_false_iff _ _ _).2 ⟨hs, hg⟩

theorem takeMore_eq (g : Group) (s : State) :
    takeMore g s = { s with
      source := s.source.tail
      dec := ⟨s.dec.phase, s.dec.wsel, s.dec.strict, s.dec.result ||| BitVec.ofNat 64 (g.toNat * 2 ^ s.dec.shift.toNat),
              s.dec.shift + 7, s.dec.cnt + 1⟩ } := by
  rw [← accumulate_eq]
  rfl

/-- Settles O28: the byte takes the step `takeMore`. -/
theorem continuationByteAccumulates : Obligations.ContinuationByteAccumulates := by
  intro s g hb hs hg
  rw [exec_contb_more hb (groupOffends_eq_false hs hg), takeMore_eq, hb]

section
variable {s : State} {g : Group}

theorem lastResponse_of_padded (h : padded s.dec.strict g (s.dec.cnt + 1) = true) :
    lastResponse g s = .error .nonCanonical (s.dec.cnt + 1) := if_pos h

theorem lastResponse_of_not_padded (h : padded s.dec.strict g (s.dec.cnt + 1) = false) :
    lastResponse g s = .ok (accumulate s.dec.result s.dec.shift g) (s.dec.cnt + 1) := by
  rw [lastResponse, h, if_neg Bool.false_ne_true]

end

/-- A lenient command, a group that is not zero and a first byte each fail the padding test (R94). -/
theorem padded_eq_false {st : Bool} {g : Group} {n : BitVec 4} (h : st = false ∨ g ≠ 0 ∨ n = 0) : padded st g (n + 1) = false := by
  rw [← Bool.not_eq_true, padded_iff]
  rintro ⟨hst, hg, hn⟩
  rcases h with h | h | rfl
  · exact Bool.false_ne_true (h.symm.trans hst)
  · exact h hg
  · exact absurd hn (by decide)

/-- Settles O29: the byte takes the step `takeLast`, and its response is OK. -/
theorem lastByteAnswersOk : Obligations.LastByteAnswersOk := by
  intro s g hb hs hg hpad
  refine ⟨_, exec_lastb_last hb (groupOffends_eq_false hs hg), ?_, takeLast_dec_phase .., takeLast_dec_wsel ..,
    takeLast_dec_strict .., takeLast_source ..⟩
  rw [takeLast_decOut, lastResponse_of_not_padded (padded_eq_false hpad), accumulate_eq]

/-- Under DEC's invariant a byte is offending by its index or by its value (R93 (a), (b)). -/
theorem groupOffends_of_decInv {s : State} {g : Group} (hinv : DecInv s) (hb : s.dec.phase = .busy)
    (h : maxLen (width s.dec.wsel) ≤ s.dec.cnt.toNat ∨ 2 ^ width s.dec.wsel ≤ g.toNat * 2 ^ (7 * s.dec.cnt.toNat)) :
    groupOffends g s = true := by
  obtain ⟨hshift, -, -⟩ := hinv hb
  by_contra hno
  obtain ⟨hidx, hval⟩ := (offending_eq_false_iff _ _ _).1 (Bool.eq_false_of_not_eq_true hno)
  rw [hshift] at hidx hval
  have hlt := (lt_maxLen_iff _ _).2 hidx
  omega

/-- Settles O31: an offending byte of either class takes the step `takeOffending`. -/
theorem offendingByteOverflows : Obligations.OffendingByteOverflows := by
  intro s g i hinv hb hi h
  exact ⟨_, exec_offending hb hi (groupOffends_of_decInv hinv hb h), takeOffending_decOut s, rfl, takeOffending_source s⟩

/-! ## The decoder step (R91) -/

/-- The decoder's turn writes DEC's registers but the command's width and policy, takes from the source, and answers (R135). -/
theorem decTurn_frame {s t : State} (h : decTurn s = .next t) :
    t.turns = s.turns ∧ t.enc = s.enc ∧ t.port = s.port ∧ t.sink = s.sink ∧ t.sinkReady = s.sinkReady
    ∧ t.sourceEnded = s.sourceEnded ∧ t.encOut = s.encOut ∧ t.dec.wsel = s.dec.wsel ∧ t.dec.strict = s.dec.strict := by
  rcases decTurn_cases s with ⟨-, e⟩ | ⟨-, -, e⟩ | ⟨b, -, -, -, e⟩ | ⟨b, -, -, -, -, e⟩ | ⟨b, -, -, -, -, e⟩ <;>
    cases e.symm.trans h <;> simp

theorem groupOffends_groupOf_iff (b : Byte) (s : State) :
    groupOffends (groupOf b) s = true ↔ width s.dec.wsel ≤ s.dec.shift.toNat
      ∨ (width s.dec.wsel < s.dec.shift.toNat + 7 ∧ b.toNat % 128 / 2 ^ (width s.dec.wsel - s.dec.shift.toNat) ≠ 0) := by
  rw [groupOffends, offending_iff, groupOf_toNat]

theorem accumulate_groupOf (result : BitVec 64) (shift : BitVec 7) (b : Byte) :
    accumulate result shift (groupOf b) = result ||| BitVec.ofNat 64 (b.toNat % 128 * 2 ^ shift.toNat) := by
  rw [accumulate_eq, groupOf_toNat]

theorem groupOf_eq_zero_iff (b : Byte) : groupOf b = 0 ↔ b.toNat % 128 = 0 := by
  rw [← BitVec.toNat_inj, groupOf_toNat]
  rfl

/-- Settles O27: the decoder's turn on `End` is `takeEnd`; on a byte it is `takeOffending`, `takeLast` or `takeMore`, by the overflow test
and then by the byte's class. -/
theorem decoderStepFollowsTheAlgorithm : Obligations.DecoderStepFollowsTheAlgorithm := by
  intro s ts sym hts hb hk
  obtain ⟨t, ht⟩ := decTurn_next { s with turns := ts }
  obtain ⟨hturns, henc, hport, hsink, hready, hended, hout, hwsel, hstrict⟩ := decTurn_frame ht
  refine ⟨t, (step_of_turn hts).trans ht, decTurn_takes_front (s := { s with turns := ts }) hb ht, hturns, henc, hport, hsink,
    hready, hended, hout, hwsel, hstrict, ?_⟩
  cases sym with
  | eoi =>
    cases (decTurn_end (s := { s with turns := ts }) hb hk).symm.trans ht
    exact ⟨rfl, rfl⟩
  | byte b =>
    simp only [← accumulate_groupOf, ← groupOffends_groupOf_iff, ← groupOf_eq_zero_iff, ← padded_iff, ← contOf_eq_false_iff]
    split
    next ho =>
      cases (decTurn_offending (s := { s with turns := ts }) hb hk ho).symm.trans ht
      exact ⟨rfl, rfl⟩
    next ho =>
      replace ho := Bool.eq_false_of_not_eq_true ho
      split
      next hc =>
        cases (decTurn_last (s := { s with turns := ts }) hb hk ho hc).symm.trans ht
        refine ⟨takeLast_dec_phase .., ?_⟩
        split
        next hp => rw [takeLast_decOut, lastResponse_of_padded (by exact hp)]
        next hp => rw [takeLast_decOut, lastResponse_of_not_padded (by simpa using hp)]
      next hc =>
        cases (decTurn_more (s := { s with turns := ts }) hb hk ho (Bool.eq_true_of_not_eq_false hc)).symm.trans ht
        exact ⟨rfl, hb, rfl, rfl, rfl⟩

/-- Settles O37: each decode is computed. -/
theorem decoderWorkedExamples : Obligations.DecoderWorkedExamples := by
  unfold Obligations.DecoderWorkedExamples
  decide

end Sys2Proof.Machine
end

section
/-! PROOF. The encoding of a value (42_laws.md R123, R125, R130): it is well formed, has the value, and is as short as the value allows; a
well-formed encoding is fixed by its length and its value, so it is the encoding of its value unless its last group is padding. -/

namespace Sys2Proof.Machine

/-! ## The encoding of a value (R123, R125) -/

theorem isEncoding_encBytes (v : Nat) : isEncoding (encBytes v) = true := by
  induction v using group_induction with
  | base v hv => rw [encBytes_of_lt hv, isEncoding_singleton, contOf_wireByte]; rfl
  | more v hv ih => rw [encBytes_of_ge hv, isEncoding_cons (encBytes_ne_nil _), contOf_wireByte, ih]; rfl

@[simp] theorem encodingValue_encBytes (v : Nat) : encodingValue (encBytes v) = v := by
  induction v using group_induction with
  | base v hv => simp [encBytes_of_lt hv, Nat.mod_eq_of_lt hv]
  | more v hv ih =>
    rw [encBytes_of_ge hv, encodingValue_cons, groupOf_wireByte, ih, BitVec.toNat_ofNat]
    exact Nat.mod_add_div v 128

/-- Settles O22: at a value that fits, `encode_W` is `enc`. -/
theorem encodingIsWellFormedWithItsValue : Obligations.EncodingIsWellFormedWithItsValue := by
  intro w v hv
  rw [encodeW_of_lt hv]
  exact ⟨isEncoding_encBytes v, encodingValue_encBytes v⟩

/-- `enc(v)` has the fewest groups that hold `v`, and one at least. -/
theorem encBytes_length_le_iff {v n : Nat} (hn : 1 ≤ n) : (encBytes v).length ≤ n ↔ v < 2 ^ (7 * n) := by
  constructor
  · intro h
    calc v < 2 ^ (7 * (encBytes v).length) := (Nat.div_eq_zero_iff_lt (by positivity)).1 (div_two_pow_encBytes_length v)
      _ ≤ 2 ^ (7 * n) := Nat.pow_le_pow_right (by norm_num) (by omega)
  · intro hv
    by_contra h
    have hlast := two_pow_le_of_encBytes_length (x := v) (by omega)
    have hmono : 2 ^ (7 * n) ≤ 2 ^ (7 * ((encBytes v).length - 1)) := Nat.pow_le_pow_right (by norm_num) (by omega)
    omega

theorem lt_two_pow_encBytes_length (v : Nat) : v < 2 ^ (7 * (encBytes v).length) :=
  (encBytes_length_le_iff (encBytes_length_pos v)).1 le_rfl

theorem bitLength_le_iff (v n : Nat) : bitLength v ≤ n ↔ v < 2 ^ n := by
  rw [bitLength]
  split
  next h => simp [h]
  next h => rw [Nat.succ_le_iff, Nat.log2_lt h]

theorem encBytes_length_eq (v : Nat) : (encBytes v).length = (max 1 (bitLength v) + 6) / 7 := by
  refine eq_of_forall_ge_iff fun n => ?_
  rcases Nat.eq_zero_or_pos n with rfl | hn
  · have := encBytes_length_pos v
    omega
  · rw [encBytes_length_le_iff hn, ← bitLength_le_iff]
    omega

/-- Settles O23: the length is at most `n` when and only when `n` groups hold the value. -/
theorem encodingLengthIsMinimal : Obligations.EncodingLengthIsMinimal := by
  intro w v hv
  rw [encodeW_of_lt hv]
  have hpos := encBytes_length_pos v
  have h1 := encBytes_length_le_iff (v := v) (n := 1) (by norm_num)
  have h2 := encBytes_length_le_iff (v := v) (n := 2) (by norm_num)
  norm_num at h1 h2
  exact ⟨encBytes_length_eq v, hpos, lt_two_pow_encBytes_length v, fun n hn h => (encBytes_length_le_iff hn).2 h,
    fun h => by omega, fun h h' => by omega⟩

/-! ## An encoding is fixed by its length and its value -/

theorem isEncoding_ext {a c : List Byte} (ha : isEncoding a = true) (hc : isEncoding c = true) (hl : a.length = c.length)
    (hv : encodingValue a = encodingValue c) : a = c := by
  induction a generalizing c with
  | nil => cases ha
  | cons b rest ih =>
    cases c with
    | nil => cases hc
    | cons b' rest' =>
      rw [encodingValue_cons, encodingValue_cons] at hv
      have hb := (groupOf b).isLt
      have hb' := (groupOf b').isLt
      have hg : groupOf b = groupOf b' := BitVec.eq_of_toNat_eq (by omega)
      have hrest : encodingValue rest = encodingValue rest' := by omega
      rw [List.length_cons, List.length_cons, Nat.succ_inj] at hl
      rcases (isEncoding_cons_iff b rest).1 ha with ⟨hk, rfl⟩ | ⟨hk, he⟩ <;>
        rcases (isEncoding_cons_iff b' rest').1 hc with ⟨hk', rfl⟩ | ⟨hk', he'⟩
      · rw [byte_ext (hk.trans hk'.symm) hg]
      · rw [List.length_eq_zero_iff.1 hl.symm] at he'
        cases he'
      · rw [List.length_eq_zero_iff.1 hl] at he
        cases he
      · rw [byte_ext (hk.trans hk'.symm) hg, ih he he' hl hrest]

/-- Whether the last group is zero. -/
abbrev EndsInZero (e : List Byte) : Prop := e.getLast?.map groupOf = some 0

theorem endsInZero_concat (init : List Byte) (b : Byte) : EndsInZero (init ++ [b]) ↔ (groupOf b).toNat = 0 := by
  rw [EndsInZero, List.getLast?_concat, Option.map_some, Option.some_inj, ← BitVec.toNat_inj]
  rfl

/-- The value of a byte sequence reaches into its last group unless that group is zero. -/
theorem endsInZero_iff_value_lt (init : List Byte) (b : Byte) :
    EndsInZero (init ++ [b]) ↔ encodingValue (init ++ [b]) < 2 ^ (7 * init.length) := by
  have hinit := encodingValue_lt init
  rw [endsInZero_concat, encodingValue_append, encodingValue_cons, encodingValue_nil, Nat.mul_zero, Nat.add_zero]
  rcases Nat.eq_zero_or_pos (groupOf b).toNat with hg | hg
  · simp [hg, hinit]
  · have := Nat.le_mul_of_pos_right (2 ^ (7 * init.length)) hg
    omega

/-- An encoding is canonical unless it is padded: more than one byte, the last group zero (R130). -/
theorem eq_encBytes_iff {e : List Byte} (he : isEncoding e = true) :
    e = encBytes (encodingValue e) ↔ ¬(EndsInZero e ∧ 1 < e.length) := by
  have hcan : e = encBytes (encodingValue e) ↔ e.length ≤ (encBytes (encodingValue e)).length := by
    refine ⟨fun h => (congrArg List.length h).le, fun h => ?_⟩
    have hpos : 1 ≤ e.length := List.length_pos_iff.2 (by rintro rfl; cases he)
    have hle := (encBytes_length_le_iff hpos).2 (encodingValue_lt e)
    exact isEncoding_ext he (isEncoding_encBytes _) (Nat.le_antisymm h hle) (encodingValue_encBytes _).symm
  rcases List.eq_nil_or_concat' e with rfl | ⟨init, b, rfl⟩
  · cases he
  have hpos := encBytes_length_pos (encodingValue (init ++ [b]))
  rw [hcan, endsInZero_iff_value_lt, List.length_append, List.length_singleton]
  rcases Nat.eq_zero_or_pos init.length with h | h
  · omega
  · rw [← encBytes_length_le_iff h]
    omega

end Sys2Proof.Machine
end

section
/-! PROOF. The bytes that `go` accepts (42_laws.md R121, R122, R126). `Fits` says of the encoding in front of `go`, at any index, that it ends
in range with a value in range; both this and the outcome are carried from one byte to the next, so an induction over the bytes gives the
two cases of `decode_W`: an accepted encoding, or a failure that does not depend on the policy. -/

namespace Sys2Proof.Machine

/-! ## The overflow test and the accumulator (R122, R126) -/

/-- A group that is not offending stays below 2^W on top of what was accumulated under it (R122 (d), (e)). -/
theorem add_group_lt {w sh acc : Nat} {g : Group} (ho : offending w sh g = false) (ha : acc < 2 ^ sh) :
    acc + g.toNat * 2 ^ sh < 2 ^ w := by
  have hsh := ((offending_eq_false_iff _ _ _).1 ho).1
  rw [← or_shifted_eq_add ha]
  exact or_group_lt ho (lt_of_lt_of_le ha (Nat.pow_le_pow_right (by norm_num) hsh.le))

/-- A group on top of what was accumulated under it stays under the next group. -/
theorem add_group_lt_next {acc i : Nat} (ha : acc < 2 ^ (7 * i)) (g : Group) :
    acc + g.toNat * 2 ^ (7 * i) < 2 ^ (7 * (i + 1)) := by
  have hg : g.toNat * 2 ^ (7 * i) ≤ 127 * 2 ^ (7 * i) := Nat.mul_le_mul_right _ (Nat.le_of_lt_succ g.isLt)
  rw [Nat.mul_succ, pow_add]
  omega

/-- Settles O34: no bit of the group is lost in 64 bits, and OR is addition. -/
theorem noBitIsLostInTheAccumulator : Obligations.NoBitIsLostInTheAccumulator := by
  intro w result shift g hr ho
  have hacc : result.toNat < 2 ^ shift.toNat := lt_of_lt_of_le hr (Nat.pow_le_pow_right (by norm_num) (Nat.min_le_right _ _))
  have hg : g.toNat * 2 ^ shift.toNat < 2 ^ 64 :=
    lt_of_lt_of_le ((offending_eq_false_iff _ _ _).1 ho).2 (Nat.pow_le_pow_right (by norm_num) (width_le w))
  have hsum : (accumulate result shift g).toNat = result.toNat + g.toNat * 2 ^ shift.toNat := by
    rw [accumulate_eq, BitVec.toNat_or, BitVec.toNat_ofNat, Nat.mod_eq_of_lt hg, or_shifted_eq_add hacc]
  exact ⟨hsum, hsum ▸ add_group_lt ho hacc⟩

theorem encodingValue_take_succ {bytes : List Byte} {i : Nat} {b : Byte} (hb : bytes[i]? = some b) :
    encodingValue (bytes.take (i + 1)) = encodingValue (bytes.take i) + (groupOf b).toNat * 2 ^ (7 * i) := by
  obtain ⟨hi, -⟩ := List.getElem?_eq_some_iff.1 hb
  rw [List.take_add_one, hb, Option.toList_some, encodingValue_append, encodingValue_cons, encodingValue_nil, Nat.mul_zero,
    Nat.add_zero, List.length_take_of_le hi.le, Nat.mul_comm]

/-- A byte is offending by its index, or by the value of the bytes up to it. -/
theorem offending_iff_value {w : Nat} {bytes : List Byte} {i : Nat} {b : Byte} (hb : bytes[i]? = some b) :
    offending w (7 * i) (groupOf b) = true ↔ maxLen w ≤ i ∨ 2 ^ w ≤ encodingValue (bytes.take (i + 1)) := by
  have hbelow : encodingValue (bytes.take i) < 2 ^ (7 * i) :=
    lt_of_lt_of_le (encodingValue_lt _) (Nat.pow_le_pow_right (by norm_num) (Nat.mul_le_mul_left _ (List.length_take_le _ _)))
  have hidx := lt_maxLen_iff w i
  rw [encodingValue_take_succ hb]
  cases ho : offending w (7 * i) (groupOf b) with
  | true =>
    have hno := mt (offending_eq_false_iff w (7 * i) (groupOf b)).2 (by simp [ho])
    simp only [true_iff]
    omega
  | false =>
    have hlt := add_group_lt ho hbelow
    have hsh := ((offending_eq_false_iff _ _ _).1 ho).1
    simp only [Bool.false_eq_true, false_iff]
    omega

/-! ## `go` beside the encoding in front of it (R121) -/

/-- At index `i`, with `acc` accumulated, `e` is a well-formed encoding that ends below MAXLEN(W) with a value below 2^W. -/
structure Fits (w i acc : Nat) (e : List Byte) : Prop where
  encoding : isEncoding e = true
  length_le : i + e.length ≤ maxLen w
  value_lt : acc + 2 ^ (7 * i) * encodingValue e < 2 ^ w

/-- The outcome of `go` on such an encoding: NonCanonical if it is padded and the policy is strict, else OK. -/
def fitOutcome (st : Bool) (i acc : Nat) (e : List Byte) : DecodeResult :=
  if st = true ∧ EndsInZero e ∧ 1 < i + e.length then .error .nonCanonical (i + e.length)
  else .ok (acc + 2 ^ (7 * i) * encodingValue e) (i + e.length)

/-- Taking a byte does not move the index at which the encoding ends. -/
theorem add_length_cons (i : Nat) (b : Byte) (e : List Byte) : i + (b :: e).length = i + 1 + e.length := by
  rw [List.length_cons, Nat.add_comm e.length, Nat.add_assoc]

/-- Taking a byte and accumulating its group does not change the value in all. -/
theorem add_value_cons (i acc : Nat) (b : Byte) (e : List Byte) :
    acc + 2 ^ (7 * i) * encodingValue (b :: e)
      = acc + (groupOf b).toNat * 2 ^ (7 * i) + 2 ^ (7 * (i + 1)) * encodingValue e := by
  rw [encodingValue_cons, Nat.mul_succ, pow_add]
  ring

theorem fits_cons_iff {w i acc : Nat} {b : Byte} {e : List Byte} (ha : acc < 2 ^ (7 * i)) :
    Fits w i acc (b :: e) ↔ offending w (7 * i) (groupOf b) = false
      ∧ ((contOf b = false ∧ e = []) ∨ (contOf b = true ∧ Fits w (i + 1) (acc + (groupOf b).toNat * 2 ^ (7 * i)) e)) := by
  constructor
  · rintro ⟨henc, hl, hv⟩
    rw [add_length_cons] at hl
    rw [add_value_cons] at hv
    refine ⟨(offending_eq_false_iff _ _ _).2 ⟨(lt_maxLen_iff w i).1 (by omega), by omega⟩, ?_⟩
    rcases (isEncoding_cons_iff b e).1 henc with h | ⟨hc, he⟩
    · exact .inl h
    · exact .inr ⟨hc, he, hl, hv⟩
  · rintro ⟨ho, ⟨hc, rfl⟩ | ⟨hc, he, hl, hv⟩⟩
    · have hi := (lt_maxLen_iff w i).2 ((offending_eq_false_iff _ _ _).1 ho).1
      exact ⟨(isEncoding_cons_iff _ _).2 (.inl ⟨hc, rfl⟩), hi, by rw [add_value_cons]; exact add_group_lt ho ha⟩
    · exact ⟨(isEncoding_cons_iff _ _).2 (.inr ⟨hc, he⟩), by rwa [add_length_cons], by rwa [add_value_cons]⟩

theorem fitOutcome_singleton (st : Bool) (i acc : Nat) (b : Byte) :
    fitOutcome st i acc [b] =
      if st = true ∧ (groupOf b).toNat = 0 ∧ 1 ≤ i then .error .nonCanonical (i + 1)
      else .ok (acc + (groupOf b).toNat * 2 ^ (7 * i)) (i + 1) := by
  have hz : EndsInZero [b] ↔ (groupOf b).toNat = 0 := endsInZero_concat [] b
  rw [fitOutcome, add_value_cons]
  simp only [hz, List.length_singleton, Nat.lt_add_left_iff_pos, Nat.succ_le_iff, encodingValue_nil, Nat.mul_zero, Nat.add_zero]

/-- The outcome does not depend on which byte of the encoding `go` has come to. -/
theorem fitOutcome_cons (st : Bool) (i acc : Nat) (b : Byte) {e : List Byte} (he : e ≠ []) :
    fitOutcome st i acc (b :: e) = fitOutcome st (i + 1) (acc + (groupOf b).toNat * 2 ^ (7 * i)) e := by
  obtain ⟨c, e, rfl⟩ := List.exists_cons_of_ne_nil he
  rw [fitOutcome, fitOutcome, add_length_cons, add_value_cons]
  simp only [EndsInZero, List.getLast?_cons_cons]

theorem decodeGo_of_fits {w : Nat} (e tail : List Byte) (st : Bool) {i acc : Nat} (ha : acc < 2 ^ (7 * i))
    (hf : Fits w i acc e) : decodeGo w st (e ++ tail) i acc = fitOutcome st i acc e := by
  induction e generalizing i acc with
  | nil => cases hf.encoding
  | cons b e ih =>
    obtain ⟨ho, ⟨hc, rfl⟩ | ⟨hc, hf⟩⟩ := (fits_cons_iff ha).1 hf
    · rw [List.singleton_append, decodeGo_last ho hc, or_shifted_eq_add ha, fitOutcome_singleton]
    · have hne : e ≠ [] := by
        rintro rfl
        cases hf.encoding
      rw [List.cons_append, decodeGo_more ho hc, or_shifted_eq_add ha, ih (add_group_lt_next ha _) hf,
        fitOutcome_cons _ _ _ _ hne]

/-- Bytes that begin with no such encoding fail, under both policies alike. -/
theorem decodeGo_fits_or_fails (w : Nat) (bytes : List Byte) {i acc : Nat} (ha : acc < 2 ^ (7 * i)) :
    (∃ e tail, bytes = e ++ tail ∧ Fits w i acc e)
    ∨ ∃ tag n, tag ≠ .nonCanonical ∧ ∀ st, decodeGo w st bytes i acc = .error tag n := by
  induction bytes generalizing i acc with
  | nil => exact .inr ⟨_, i, by decide, fun st => rfl⟩
  | cons b rest ih =>
    cases ho : offending w (7 * i) (groupOf b) with
    | true => exact .inr ⟨.overflow, i + 1, by decide, fun st => decodeGo_offending ho st rest acc⟩
    | false =>
      cases hc : contOf b with
      | false => exact .inl ⟨[b], rest, rfl, (fits_cons_iff ha).2 ⟨ho, .inl ⟨hc, rfl⟩⟩⟩
      | true =>
        rcases ih (add_group_lt_next ha (groupOf b)) with ⟨e, tail, rfl, hf⟩ | ⟨tag, n, ht, hn⟩
        · exact .inl ⟨b :: e, tail, rfl, (fits_cons_iff ha).2 ⟨ho, .inr ⟨hc, hf⟩⟩⟩
        · exact .inr ⟨tag, n, ht, fun st => by rw [decodeGo_more ho hc, or_shifted_eq_add ha, hn]⟩

/-! ## The two cases of `decode_W` (R126, R130) -/

/-- The outcome of a decode whose bytes begin with the accepted encoding `e`: OK, or NonCanonical under the strict policy if `e` is not
the encoding of its value. -/
def acceptOutcome (st : Bool) (e : List Byte) : DecodeResult :=
  if st = true ∧ e ≠ encBytes (encodingValue e) then .error .nonCanonical e.length else .ok (encodingValue e) e.length

/-- The bytes are a well-formed encoding of at most MAXLEN(W) bytes and a value below 2^W. -/
def Accepted (w : Nat) (e : List Byte) : Prop :=
  isEncoding e = true ∧ e.length ≤ maxLen w ∧ encodingValue e < 2 ^ w

theorem fits_zero_iff (w : Nat) (e : List Byte) : Fits w 0 0 e ↔ Accepted w e := by
  constructor
  · rintro ⟨he, hl, hv⟩
    exact ⟨he, by simpa using hl, by simpa using hv⟩
  · rintro ⟨he, hl, hv⟩
    exact ⟨he, by simpa using hl, by simpa using hv⟩

theorem fitOutcome_zero {e : List Byte} (he : isEncoding e = true) (st : Bool) : fitOutcome st 0 0 e = acceptOutcome st e := by
  have hcan : e ≠ encBytes (encodingValue e) ↔ EndsInZero e ∧ 1 < e.length := not_iff_comm.1 (eq_encBytes_iff he).symm
  simp [fitOutcome, acceptOutcome, hcan]

theorem decodeW_of_accepted {w : Nat} {e : List Byte} (h : Accepted w e) (tail : List Byte) (st : Bool) :
    decodeW w (e ++ tail) st = acceptOutcome st e := by
  have ⟨he, _⟩ := h
  rw [decodeW, decodeGo_of_fits e tail st (by norm_num) ((fits_zero_iff w e).2 h), fitOutcome_zero he]

/-- A decode accepts an encoding in front of its bytes, or fails alike under both policies. -/
theorem decodeW_cases (w : Nat) (bytes : List Byte) :
    (∃ e tail, bytes = e ++ tail ∧ Accepted w e ∧ ∀ st, decodeW w bytes st = acceptOutcome st e)
    ∨ ∃ tag n, tag ≠ .nonCanonical ∧ ∀ st, decodeW w bytes st = .error tag n := by
  rcases decodeGo_fits_or_fails w bytes (i := 0) (acc := 0) (by norm_num) with ⟨e, tail, rfl, hf⟩ | hfail
  · have hacc := (fits_zero_iff w e).1 hf
    exact .inl ⟨e, tail, rfl, hacc, decodeW_of_accepted hacc tail⟩
  · exact .inr hfail

@[simp] theorem acceptOutcome_lenient (e : List Byte) : acceptOutcome false e = .ok (encodingValue e) e.length := rfl

theorem acceptOutcome_of_canonical (st : Bool) {e : List Byte} (h : e = encBytes (encodingValue e)) :
    acceptOutcome st e = .ok (encodingValue e) e.length := if_neg fun hp => hp.2 h

theorem acceptOutcome_strict_of_not_canonical {e : List Byte} (h : e ≠ encBytes (encodingValue e)) :
    acceptOutcome true e = .error .nonCanonical e.length := if_pos ⟨rfl, h⟩

theorem acceptOutcome_ok {st : Bool} {e : List Byte} {v n : Nat} (h : acceptOutcome st e = .ok v n) :
    v = encodingValue e ∧ n = e.length := by
  rw [acceptOutcome] at h
  split at h <;> cases h
  exact ⟨rfl, rfl⟩

theorem acceptOutcome_error {st : Bool} {e : List Byte} {tag : Failure} {n : Nat} (h : acceptOutcome st e = .error tag n) :
    tag = .nonCanonical ∧ n = e.length := by
  rw [acceptOutcome] at h
  split at h <;> cases h
  exact ⟨rfl, rfl⟩

theorem acceptOutcome_count (st : Bool) (e : List Byte) : (acceptOutcome st e).count = e.length := by
  rw [acceptOutcome]
  split <;> rfl

/-- An OK or NonCanonical outcome is of an accepted encoding. -/
theorem accepted_of_decodeW {w : Nat} {bytes : List Byte} {st : Bool}
    (h : (∃ v n, decodeW w bytes st = .ok v n) ∨ ∃ n, decodeW w bytes st = .error .nonCanonical n) :
    ∃ e tail, bytes = e ++ tail ∧ Accepted w e ∧ decodeW w bytes st = acceptOutcome st e := by
  rcases decodeW_cases w bytes with ⟨e, tail, hb, ha, hd⟩ | ⟨tag, n, ht, hd⟩
  · exact ⟨e, tail, hb, ha, hd st⟩
  · rw [hd st] at h
    rcases h with ⟨v, m, h⟩ | ⟨m, h⟩ <;> cases h
    exact absurd rfl ht

end Sys2Proof.Machine
end

section
/-! PROOF. The laws of decoding (42_laws.md R124 to R134), each read off the two cases of `decode_W`. -/

namespace Sys2Proof.Machine

/-! ## Round trip, acceptance and the strict policy (R124, R126, R127, R130) -/

theorem accepted_encBytes {w v : Nat} (hw : 1 ≤ w) (hv : v < 2 ^ w) : Accepted w (encBytes v) :=
  ⟨isEncoding_encBytes v, encodeW_of_lt hv ▸ encodeW_length_le_maxLen hw v, by rwa [encodingValue_encBytes]⟩

/-- Settles O38: the encoding of `v` is accepted, and is the encoding of its value. -/
theorem encodeThenDecodeRoundTrips : Obligations.EncodeThenDecodeRoundTrips := by
  intro w v tail st hw hv
  rw [encodeW_of_lt hv, decodeW_of_accepted (accepted_encBytes hw hv), acceptOutcome_of_canonical st (by rw [encodingValue_encBytes]),
    encodingValue_encBytes]

/-- Settles O39: the first `n` bytes are the encoding that was accepted. -/
theorem acceptanceInClosedForm : Obligations.AcceptanceInClosedForm := by
  refine ⟨fun w bytes i b hb _ => offending_iff_value hb, fun w bytes v n _ => ⟨fun h => ?_, ?_⟩⟩
  · obtain ⟨e, tail, rfl, ⟨he, hl, hv⟩, hd⟩ := accepted_of_decodeW (.inl ⟨v, n, h⟩)
    obtain ⟨rfl, rfl⟩ := acceptOutcome_ok (hd.symm.trans h)
    rw [List.take_left]
    exact ⟨by simp, hl, he, rfl, hv⟩
  · rintro ⟨hn, hl, he, rfl, hv⟩
    have hlen := List.length_take_of_le hn
    have hd := decodeW_of_accepted (w := w) (e := bytes.take n) ⟨he, by omega, hv⟩ (bytes.drop n) false
    rwa [List.take_append_drop, acceptOutcome_lenient, hlen] at hd

/-- A well-formed encoding is canonical when it is one byte long or its last group is not zero. -/
theorem eq_encBytes_iff_getLast? {bytes : List Byte} (he : isEncoding bytes = true) :
    bytes = encBytes (encodingValue bytes) ↔
      bytes.length = 1 ∨ ∃ b, bytes.getLast? = some b ∧ b.toNat % 128 ≠ 0 := by
  rw [eq_encBytes_iff he]
  rcases List.eq_nil_or_concat' bytes with rfl | ⟨init, b, rfl⟩
  · cases he
  simp only [endsInZero_concat, groupOf_toNat, List.length_append, List.length_singleton, List.getLast?_concat,
    Option.some_inj, exists_eq_left']
  omega

section
variable {w : Nat} {e : List Byte}

theorem take_length_eq_encodeW_iff (hv : encodingValue e < 2 ^ w) (tail : List Byte) :
    (e ++ tail).take e.length = encodeW w (encodingValue e) ↔ e = encBytes (encodingValue e) := by
  rw [List.take_left, encodeW_of_lt hv]

theorem acceptOutcome_strict_ok_iff (hv : encodingValue e < 2 ^ w) (tail : List Byte) (v n : Nat) :
    acceptOutcome true e = .ok v n ↔ acceptOutcome false e = .ok v n ∧ (e ++ tail).take n = encodeW w v := by
  have htake := take_length_eq_encodeW_iff hv tail
  by_cases hcan : e = encBytes (encodingValue e)
  · rw [acceptOutcome_of_canonical true hcan, acceptOutcome_lenient, iff_self_and]
    intro h
    cases h
    exact htake.2 hcan
  · rw [acceptOutcome_strict_of_not_canonical hcan, acceptOutcome_lenient]
    refine ⟨nofun, fun ⟨h, ht⟩ => ?_⟩
    cases h
    exact absurd (htake.1 ht) hcan

theorem acceptOutcome_strict_nonCanonical_iff (hv : encodingValue e < 2 ^ w) (tail : List Byte) (n : Nat) :
    acceptOutcome true e = .error .nonCanonical n ↔
      ∃ v, acceptOutcome false e = .ok v n ∧ (e ++ tail).take n ≠ encodeW w v := by
  have htake := take_length_eq_encodeW_iff hv tail
  by_cases hcan : e = encBytes (encodingValue e)
  · rw [acceptOutcome_of_canonical true hcan]
    refine ⟨nofun, fun ⟨v, h, hne⟩ => ?_⟩
    cases h
    exact absurd (htake.2 hcan) hne
  · rw [acceptOutcome_strict_of_not_canonical hcan]
    constructor
    · intro h
      cases h
      exact ⟨_, rfl, mt htake.1 hcan⟩
    · rintro ⟨v, h, -⟩
      cases h
      rfl

end

/-- Settles O40: an accepted encoding is OK under the strict policy when it is the encoding of its value and NonCanonical when not, and
a failure is the same under both policies. -/
theorem strictAcceptsExactlyCanonical : Obligations.StrictAcceptsExactlyCanonical := by
  refine ⟨fun bytes he => eq_encBytes_iff_getLast? he, fun w bytes _ => ?_⟩
  rcases decodeW_cases w bytes with ⟨e, tail, rfl, ⟨-, -, hv⟩, hd⟩ | ⟨tag, n, ht, hd⟩
  · rw [hd, hd]
    exact ⟨acceptOutcome_strict_ok_iff hv tail, acceptOutcome_strict_nonCanonical_iff hv tail, fun tag n =>
      ⟨nofun, fun ⟨h, ht⟩ => absurd (acceptOutcome_error h).1 ht⟩⟩
  · rw [hd, hd]
    refine ⟨fun v n' => by simp, fun n' => by simp [ht], fun tag' n' => iff_self_and.2 fun h => ?_⟩
    cases h
    exact ht

/-- All W bits set need MAXLEN(W) bytes. -/
theorem encodeW_max_length {w : Nat} (hw : 1 ≤ w) : (encodeW w (2 ^ w - 1)).length = maxLen w := by
  refine Nat.le_antisymm (encodeW_length_le_maxLen hw _) ?_
  have hlt := lt_two_pow_encBytes_length (2 ^ w - 1)
  rw [encodeW_of_lt (Nat.sub_lt (by positivity) (by norm_num))]
  have hle : w ≤ 7 * (encBytes (2 ^ w - 1)).length := (Nat.pow_le_pow_iff_right (by norm_num : 1 < 2)).1 (by omega)
  unfold maxLen
  omega

theorem decodeW_count_le_maxLen {w : Nat} {bytes : List Byte} {st : Bool}
    (h : (∃ v n, decodeW w bytes st = .ok v n) ∨ ∃ n, decodeW w bytes st = .error .nonCanonical n) :
    (decodeW w bytes st).count ≤ maxLen w := by
  obtain ⟨e, tail, -, ⟨-, hl, -⟩, hd⟩ := accepted_of_decodeW h
  rwa [hd, acceptOutcome_count]

/-- Settles O24: 2^W - 1 needs W bits, and whatever a decode accepts has at most MAXLEN(W) bytes. -/
theorem maximumLengths : Obligations.MaximumLengths := by
  refine ⟨fun w hw => ?_, by decide⟩
  have hlongest := encodeThenDecodeRoundTrips w (2 ^ w - 1) [] false hw (Nat.sub_lt (by positivity) (by norm_num))
  rw [List.append_nil, encodeW_max_length hw] at hlongest
  refine ⟨encodeW_max_length hw, encodeW_length_le_maxLen hw, fun bytes st v n h => ?_, fun bytes st n h => ?_, _, _, hlongest⟩
  · have hn := decodeW_count_le_maxLen (.inl ⟨v, n, h⟩)
    rwa [h] at hn
  · have hn := decodeW_count_le_maxLen (.inr ⟨n, h⟩)
    rwa [h] at hn

/-! ## Padding (R131) -/

theorem encodingValue_map_setCont (bytes : List Byte) :
    encodingValue (bytes.map fun b => wireByte true (groupOf b)) = encodingValue bytes := by
  induction bytes with
  | nil => rfl
  | cons b rest ih => simp [ih]

theorem encodingValue_replicate_zero (k : Nat) : encodingValue (List.replicate k (0x80 : Byte)) = 0 := by
  induction k with
  | zero => rfl
  | succ k ih => rw [List.replicate_succ, encodingValue_cons, ih]; rfl

theorem paddedEnc_length (v k : Nat) : (paddedEnc v k).length = (encBytes v).length + k := by
  cases k with
  | zero => rfl
  | succ k => simp [paddedEnc]

theorem encodingValue_paddedEnc (v k : Nat) : encodingValue (paddedEnc v k) = v := by
  cases k with
  | zero => exact encodingValue_encBytes v
  | succ k =>
    rw [paddedEnc, encodingValue_append, encodingValue_append, encodingValue_map_setCont, encodingValue_replicate_zero,
      encodingValue_encBytes]
    rfl

theorem isEncoding_paddedEnc (v k : Nat) : isEncoding (paddedEnc v k) = true := by
  cases k with
  | zero => exact isEncoding_encBytes v
  | succ k =>
    refine isEncoding_append_lastb (fun x hx => ?_) (by decide)
    rcases List.mem_append.1 hx with hx | hx
    · obtain ⟨b, -, rfl⟩ := List.mem_map.1 hx
      exact (contOf_iff _).1 (contOf_wireByte true _)
    · rw [List.eq_of_mem_replicate hx]
      decide

/-- The well-formed encodings of a value are its paddings. -/
theorem exists_paddedEnc_iff {bytes : List Byte} {v : Nat} :
    (isEncoding bytes = true ∧ encodingValue bytes = v) ↔ ∃ k, bytes = paddedEnc v k := by
  constructor
  · rintro ⟨he, rfl⟩
    have hle := (encBytes_length_le_iff (List.length_pos_iff.2 (by rintro rfl; cases he))).2 (encodingValue_lt bytes)
    refine ⟨bytes.length - (encBytes (encodingValue bytes)).length, isEncoding_ext he (isEncoding_paddedEnc _ _) ?_
      (encodingValue_paddedEnc _ _).symm⟩
    rw [paddedEnc_length, Nat.add_sub_cancel' hle]
  · rintro ⟨k, rfl⟩
    exact ⟨isEncoding_paddedEnc v k, encodingValue_paddedEnc v k⟩

/-- Settles O41: a decode of the whole source accepts the paddings of `v` that MAXLEN(W) allows. -/
theorem acceptedEncodingsOfAValue : Obligations.AcceptedEncodingsOfAValue := by
  intro w v bytes hw hv
  obtain ⟨-, hclosed⟩ := acceptanceInClosedForm
  rw [hclosed w bytes v _ hw, List.take_length, encodeW_of_lt hv]
  constructor
  · rintro ⟨-, hl, he, hval, -⟩
    obtain ⟨k, rfl⟩ := exists_paddedEnc_iff.1 ⟨he, hval.symm⟩
    rw [paddedEnc_length] at hl
    exact ⟨k, hl, rfl, paddedEnc_length v k⟩
  · rintro ⟨k, hl, rfl, hlen⟩
    exact ⟨le_rfl, hlen ▸ hl, isEncoding_paddedEnc v k, (encodingValue_paddedEnc v k).symm, hv⟩

/-! ## Widening (R134) -/

theorem Accepted.widen {w w' : Nat} {e : List Byte} (h : Accepted w e) (hw : w ≤ w') : Accepted w' e := by
  obtain ⟨he, hl, hv⟩ := h
  refine ⟨he, hl.trans ?_, lt_of_lt_of_le hv (Nat.pow_le_pow_right (by norm_num) hw)⟩
  unfold maxLen
  omega

/-- An OK or NonCanonical outcome is the same at every greater width. -/
theorem decodeW_widen {w w' : Nat} (hw : w ≤ w') {bytes : List Byte} {st : Bool}
    (h : (∃ v n, decodeW w bytes st = .ok v n) ∨ ∃ n, decodeW w bytes st = .error .nonCanonical n) :
    decodeW w' bytes st = decodeW w bytes st := by
  obtain ⟨e, tail, rfl, ha, hd⟩ := accepted_of_decodeW h
  rw [hd, decodeW_of_accepted (ha.widen hw)]

/-- An end of input counts the whole source. -/
theorem decodeW_end_count {w : Nat} {bytes : List Byte} {st : Bool} {n : Nat}
    (h : decodeW w bytes st = .error .unexpectedEndOfInput n) : n = bytes.length := by
  rcases decodeGo_end_or_symbolsTaken w st bytes 0 0 with hd | hd
  · cases h.symm.trans hd
    exact Nat.zero_add _
  · rw [← decodeW, h] at hd
    exact absurd hd (Nat.succ_ne_self n)

/-- Settles O42: what is accepted at the narrower width is accepted at the wider one. -/
theorem wideningKeepsDecodes : Obligations.WideningKeepsDecodes := by
  refine ⟨fun w w' bytes st _ hw => ?_, ⟨624485, by decide⟩, 3, by decide⟩
  have hok : ∀ v n, decodeW w bytes st = .ok v n → decodeW w' bytes st = .ok v n :=
    fun v n h => (decodeW_widen hw (.inl ⟨v, n, h⟩)).trans h
  refine ⟨hok, fun tag' n' h => ?_, fun h => ?_⟩
  · cases hd : decodeW w bytes st with
    | ok v n => cases h.symm.trans (hok v n hd)
    | error tag n => exact ⟨tag, n, rfl⟩
  · cases hd : decodeW w bytes st with
    | ok v n => cases h.symm.trans (hok v n hd)
    | error tag n =>
      cases tag with
      | unexpectedEndOfInput => exact .inl (by rw [decodeW_end_count hd])
      | overflow => exact .inr ⟨n, rfl⟩
      | nonCanonical => cases h.symm.trans ((decodeW_widen hw (.inr ⟨n, hd⟩)).trans hd)

/-! ## Streams (R132) -/

theorem decodeStream_encodeW_append {w v : Nat} (hw : 1 ≤ w) (hv : v < 2 ^ w) (st : Bool) (ws : List Nat) (tail : List Byte) :
    decodeStream st (w :: ws) (encodeW w v ++ tail) = .ok v (encodeW w v).length :: decodeStream st ws tail := by
  rw [decodeStream, encodeThenDecodeRoundTrips w v tail st hw hv]
  simp only [DecodeResult.count, List.drop_left]

/-- Settles O43: each decode answers its own item and drops its encoding. -/
theorem streamsDecodeInOrder : Obligations.StreamsDecodeInOrder := by
  intro items st hitems
  induction items with
  | nil => exact ⟨rfl, rfl⟩
  | cons p items ih =>
    obtain ⟨⟨hw, hv⟩, hrest⟩ := List.forall_mem_cons.1 hitems
    obtain ⟨hdec, hdrop⟩ := ih hrest
    simp only [List.map_cons, List.flatten_cons, decodeStream_encodeW_append hw hv, List.sum_cons, DecodeResult.count,
      List.drop_length_add_append]
    exact ⟨congrArg _ hdec, hdrop⟩

end Sys2Proof.Machine
end

section
/-! PROOF. The turns of the two units commute (42_laws.md R135): each reads and writes the registers and the port of its own unit, and leaves
the other's as they are. -/

namespace Sys2Proof.Machine

/-- The encoder's turn reads and writes its own registers, the sink and its responses, and nothing else. -/
theorem encStep_of_own_side {s t : State} (he : t.enc = s.enc) (hr : t.sinkReady = s.sinkReady) (hk : t.sink = s.sink)
    (ho : t.encOut = s.encOut) :
    encStep t = { t with enc := (encStep s).enc, sink := (encStep s).sink, encOut := (encStep s).encOut } := by
  obtain ⟨enc, dec, port, sink, ready, source, ended, encOut, decOut, turns, draws⟩ := t
  cases he; cases hr; cases hk; cases ho
  rcases encStep_cases s with ⟨hi | hn, e⟩ | ⟨hb, hr, hx, e⟩ | ⟨hb, hr, hx, e⟩ <;> rw [e]
  · exact encStep_idle hi
  · exact encStep_not_ready hn
  · exact encStep_more hb hr hx
  · exact encStep_last hb hr hx

theorem takeLast_set_enc_side (c : EncRegs) (k : List Byte) (o : List EncResponse) (g : Group) (s : State) :
    takeLast g { s with enc := c, sink := k, encOut := o } = { takeLast g s with enc := c, sink := k, encOut := o } := by
  cases hp : padded s.dec.strict g (s.dec.cnt + 1) <;> simp only [takeLast, hp] <;> rfl

/-- The decoder's turn does not look at the encoder's registers, the sink or the encoder's responses. -/
theorem decTurn_set_enc_side (c : EncRegs) (k : List Byte) (o : List EncResponse) {s t : State} (h : decTurn s = .next t) :
    decTurn { s with enc := c, sink := k, encOut := o } = .next { t with enc := c, sink := k, encOut := o } := by
  rcases decTurn_cases s with ⟨hi | hk, e⟩ | ⟨hb, hk, e⟩ | ⟨b, hb, hk, ho, e⟩ | ⟨b, hb, hk, ho, hc, e⟩ |
    ⟨b, hb, hk, ho, hc, e⟩ <;> cases e.symm.trans h
  · exact decTurn_idle hi
  · exact decTurn_wait hk
  · exact decTurn_end hb hk
  · exact decTurn_offending hb hk ho
  · exact decTurn_more hb hk ho hc
  · rw [← takeLast_set_enc_side]
    exact decTurn_last hb hk ho hc

/-- Settles O51: neither unit's turn reads what the other's writes. -/
theorem unitStepsCommute : Obligations.UnitStepsCommute := by
  intro s
  obtain ⟨t, ht⟩ := decTurn_next s
  obtain ⟨-, henc, -, hsink, hready, -, hout, -, -⟩ := decTurn_frame ht
  refine ⟨?_, fun u hu => ?_, fun u hu => ?_⟩
  · have hs := encStep_of_own_side (s := s) (t := s) rfl rfl rfl rfl
    have hst := encStep_of_own_side henc hready hsink hout
    calc decTurn (encStep s) = .next (encStep t) := by rw [hs, hst]; exact decTurn_set_enc_side _ _ _ ht
      _ = andThen (decTurn s) (takeTurn .enc) := by rw [ht]; rfl
  · cases hu
    rw [encStep_of_own_side (s := s) (t := s) rfl rfl rfl rfl]
    exact ⟨rfl, rfl, rfl⟩
  · cases ht.symm.trans hu
    exact ⟨henc, hsink, hout⟩

end Sys2Proof.Machine
end

section
/-! PROOF. NonCanonical (41_decoder.md R94, 60_exceptions.md R144): only `takeLast` can answer it, and only when the padding test succeeds,
which asks for a strict command. -/

namespace Sys2Proof.Machine

/-- A zero group on a byte after the first is padding under the strict policy; the count that the test reads does not wrap. -/
theorem padded_zero_of_not_first {c : BitVec 4} {w : BitVec 2} (hc : c ≠ 0) (hlt : c.toNat < maxLen (width w)) :
    padded true 0 (c + 1) = true := by
  have hpos : c.toNat ≠ 0 := fun h => hc (BitVec.eq_of_toNat_eq h)
  rw [padded_iff, cnt_succ_toNat hlt]
  exact ⟨rfl, rfl, by omega⟩

/-- A zero group in front of an index in range loses no bit, so it is not offending (R93). -/
theorem groupOffends_zero_of_decInv {s : State} (hinv : DecInv s) (hb : s.dec.phase = .busy)
    (hlt : s.dec.cnt.toNat < maxLen (width s.dec.wsel)) : groupOffends 0 s = false := by
  obtain ⟨hshift, -, -⟩ := hinv hb
  have hidx : s.dec.shift.toNat < width s.dec.wsel := hshift ▸ (lt_maxLen_iff _ _).1 hlt
  exact groupOffends_eq_false hidx (by simp)

theorem instr_command_or_byte (i : Instr) :
    (∃ v, i ∈ encodeCommands v) ∨ i ∈ decodeCommands ∨ ∃ g, i = .contb g ∨ i = .lastb g := by
  cases i with
  | enc8 v | enc16 v | enc32 v | enc64 v => exact .inl ⟨v, by simp [encodeCommands]⟩
  | dec8 | dec16 | dec32 | dec64 | decs8 | decs16 | decs32 | decs64 => exact .inr (.inl (by simp [decodeCommands]))
  | contb g | lastb g => exact .inr (.inr ⟨g, by simp⟩)

/-- What an instruction can add to DEC's responses: nothing, an Overflow, or the response of `takeLast`. -/
theorem exec_decOut_cases {i : Instr} {s t : State} (h : exec i s = .next t) :
    t.decOut = s.decOut
    ∨ t.decOut = s.decOut ++ [.error .overflow (s.dec.cnt + 1)]
    ∨ ∃ g, t.decOut = s.decOut ++ [lastResponse g s] := by
  rcases instr_command_or_byte i with ⟨v, hi⟩ | hi | ⟨g, hi⟩
  · obtain ⟨w, e⟩ := exec_encode_command hi s
    cases e.symm.trans h
    exact .inl (acceptEnc_decOut ..)
  · obtain ⟨w, st, e⟩ := exec_decode_command hi s
    cases e.symm.trans h
    exact .inl (acceptDec_decOut ..)
  · rcases exec_byte_next hi h with ⟨-, rfl⟩ | ⟨-, rfl | rfl | rfl⟩
    · exact .inl rfl
    · exact .inr (.inl (takeOffending_decOut s))
    · exact .inl (takeMore_decOut s g)
    · exact .inr (.inr ⟨g, takeLast_decOut s g⟩)

/-- A lenient command's last byte answers OK (R94). -/
theorem lastResponse_of_lenient {s : State} (h : s.dec.strict = false) (g : Group) :
    lastResponse g s = .ok (accumulate s.dec.result s.dec.shift g) (s.dec.cnt + 1) :=
  lastResponse_of_not_padded (padded_eq_false (.inl h))

/-- Settles O30: the byte takes the step `takeLast`, whose padding test succeeds; for a lenient command it never does. -/
theorem paddedLastByteIsNonCanonical : Obligations.PaddedLastByteIsNonCanonical := by
  refine ⟨fun s g hinv hb hst hg hc hlt => ?_, fun s t i n hst h heq => ?_⟩
  · subst hg
    have hpad : padded s.dec.strict 0 (s.dec.cnt + 1) = true := hst ▸ padded_zero_of_not_first hc hlt
    refine ⟨_, exec_lastb_last hb (groupOffends_zero_of_decInv hinv hb hlt), ?_, takeLast_dec_phase .., takeLast_source ..⟩
    rw [takeLast_decOut, lastResponse_of_padded hpad]
  · rcases exec_decOut_cases h with e | e | ⟨g, e⟩
    · simp [e] at heq
    · simp [e] at heq
    · simp [e, lastResponse_of_lenient hst] at heq

end Sys2Proof.Machine
end

section
/-! PROOF. Reset and reads from the middle (70_reset_and_hazards.md R165 to R167, R177). Reset keeps all but the registers, so what the
sink holds after it is what the encoder's turns before it appended: the first bytes of the encoding, none of them the last. What is left
of an encoding after its first k bytes is the encoding of what is left of the value after its first k groups. -/

namespace Sys2Proof.Machine

/-! ## Reset (R165, R167) -/

theorem step_reset {s : State} {ts : List Turn} (hts : s.turns = .host .reset :: ts) :
    step s = .next (resetBlock { s with turns := ts }) :=
  step_of_turn hts

/-- Settles O50: `resetBlock` writes the two units' registers alone. -/
theorem resetTouchesTheRegistersOnly : Obligations.ResetTouchesTheRegistersOnly :=
  fun _ _ hts => step_reset hts

/-! ## A decode from the middle of an encoding (R177) -/

/-- After k of its bytes the encoding goes on as the encoding of the groups left. -/
theorem encBytes_drop {v k : Nat} (hk : k < (encBytes v).length) : (encBytes v).drop k = encBytes (v / 2 ^ (7 * k)) := by
  induction v using group_induction generalizing k with
  | base v hv =>
    rw [encBytes_of_lt hv] at hk
    obtain rfl : k = 0 := Nat.lt_one_iff.1 hk
    simp
  | more v hv ih =>
    cases k with
    | zero => simp
    | succ k =>
      rw [encBytes_of_ge hv] at hk ⊢
      rw [List.drop_succ_cons, ih (Nat.lt_of_succ_lt_succ hk), div_two_pow_group_succ]

/-- Settles O44: the bytes left are the encoding of `v / 2^(7k)`, which decodes to itself under both policies (R124). -/
theorem decodeFromTheMiddleOfAnEncoding : Obligations.DecodeFromTheMiddleOfAnEncoding := by
  intro w v k st hw hv hk
  have hrest : v / 2 ^ (7 * k) < 2 ^ w := (Nat.div_le_self ..).trans_lt hv
  rw [encodeW_of_lt hv] at hk ⊢
  have hround := encodeThenDecodeRoundTrips w (v / 2 ^ (7 * k)) [] st hw hrest
  rwa [encodeW_of_lt hrest, List.append_nil, ← encBytes_drop hk, List.length_drop] at hround

/-! ## An encode abandoned by a reset (R166) -/

/-- Every byte of an encoding but its last is a `CONTB` byte. -/
theorem contOf_of_mem_take {e : List Byte} {k : Nat} (he : isEncoding e = true) (hk : k < e.length) :
    ∀ b ∈ e.take k, contOf b = true := by
  induction e generalizing k with
  | nil => exact absurd hk (Nat.not_lt_zero k)
  | cons c rest ih =>
    cases k with
    | zero => simp
    | succ k =>
      rcases (isEncoding_cons_iff c rest).1 he with ⟨-, rfl⟩ | ⟨hc, hrest⟩
      · simp at hk
      · exact List.forall_mem_cons.2 ⟨hc, ih hrest (Nat.lt_of_succ_lt_succ hk)⟩

/-- With more than one byte still to come, a ready encoder's turn is a pass that goes on. -/
theorem step_enc_of_encPending {s : State} {ts : List Turn} (hts : s.turns = .enc :: ts) (hr : s.sinkReady = true)
    (hn : 1 < s.encPending.length) :
    step s = .next (emitMore { s with turns := ts })
    ∧ s.encPending = wireByte true (encGroup s.enc.x) :: (emitMore { s with turns := ts }).encPending := by
  have hb : s.enc.phase = .busy := by
    cases hp : s.enc.phase with
    | idle => rw [encPending_of_idle hp] at hn; exact absurd hn (Nat.not_lt_zero 1)
    | busy => rfl
  have hx : s.enc.x.toNat / 128 ≠ 0 := fun hx => by
    rw [encPending_of_busy hb, encBytes_of_lt (by omega)] at hn
    exact absurd hn (Nat.lt_irrefl 1)
  have hmore : encStep { s with turns := ts } = emitMore { s with turns := ts } := encStep_more hb hr hx
  exact ⟨(step_of_turn hts).trans (congrArg Host.Outcome.next hmore), emitMore_encPending hb hx⟩

/-- k turns of a ready encoder that still has more than k bytes to give append the first k of them, and neither respond nor touch
the source. -/
theorem run_encTurns {k : Nat} {rest : List Turn} {s : State} (hts : s.turns = List.replicate k .enc ++ rest)
    (hr : s.sinkReady = true) (hk : k < s.encPending.length) :
    ∃ t, runSteps k s = .next t ∧ t.turns = rest ∧ t.sink = s.sink ++ s.encPending.take k ∧ t.encOut = s.encOut
      ∧ t.decOut = s.decOut ∧ t.source = s.source := by
  induction k generalizing s with
  | zero => exact ⟨s, rfl, hts, by simp, rfl, rfl, rfl⟩
  | succ k ih =>
    obtain ⟨hstep, hpending⟩ := step_enc_of_encPending hts hr ((Nat.le_add_left 1 k).trans_lt hk)
    rw [hpending] at hk ⊢
    obtain ⟨t, ht, htt, hsink, hframe⟩ :=
      ih (s := emitMore { s with turns := List.replicate k .enc ++ rest }) rfl hr (Nat.lt_of_succ_lt_succ hk)
    refine ⟨t, (runSteps_succ_of_step hstep).trans ht, htt, ?_, hframe⟩
    rw [hsink, emitMore_sink, List.append_assoc]
    rfl

/-- Settles O19: the encoder's k turns append the first k bytes of the encoding, and reset keeps the sink and the responses. -/
theorem abandonedEncodeLeavesAPrefix : Obligations.AbandonedEncodeLeavesAPrefix := by
  intro s w v k rest he hr hts hk
  obtain ⟨hpending, -⟩ := encTotal_after_accept (he.trans (by rw [encOperand_eq]))
  obtain ⟨u, hu, hut, hsink, hencOut, hdecOut, hsource⟩ := run_encTurns hts hr (hpending ▸ hk)
  have hreset : runSteps 1 u = .next (resetBlock { u with turns := rest }) := runSteps_succ_of_step (step_reset hut)
  have hcont := contOf_of_mem_take (isEncoding_encBytes _) hk
  exact ⟨_, (runSteps_add hu).trans hreset, hpending ▸ hsink, fun b hb => (contOf_iff b).1 (hcont b hb), hencOut, hdecOut,
    rfl, rfl, hsource, rfl⟩

end Sys2Proof.Machine
end
